-- ==== Sys2Proof/Word.lean ====
section
/-! DEFINITION. The value domains of spec/00_scope.md rule R8. Addition between Words is `add32`
(R9), `&&& ||| ^^^ ~~~` are AND, OR, XOR, NOT within 32 bits (R10), `<<< >>>` the logical shifts (R11):
all are the operations `BitVec` already has. -/

namespace Sys2Proof

/-- R8: integers 0 to 255. -/
abbrev Byte := BitVec 8

/-- R8: "an unsigned 32-bit integer". -/
abbrev Word := BitVec 32

/-- R8: integers 0 to 2^64-1, used only for the length field. -/
abbrev Len64 := BitVec 64

end Sys2Proof
end

