-- ==== Sys2Proof/Syntax.lean ====
section
/-! DEFINITION. The operations of spec/opcode_table.json, one constructor a row. The PHASE4 rows have no operand
fields (spec/30_encoding.md rule R99). The CMD8 rows carry the seven bits the core ignores (R101), so that no bit
of the written value is lost (log 18). -/

namespace Sys2Proof

/-- One constructor per row of spec/opcode_table.json, in the table's order. -/
inductive Instr where
  | idle
  | init
  | pad
  | fetch
  | decode
  | expand
  | loadw
  | round
  | fold
  | format
  | done
  | reserved11
  | reserved12
  | reserved13
  | reserved14
  | fault
  | start (ignored : BitVec 7)
  | cmdnop (ignored : BitVec 7)
deriving DecidableEq, Repr

end Sys2Proof
end

