-- ==== Sys2Proof/Decode.lean ====
section
/-! DEFINITION. The PHASE code map (spec/30_encoding.md rules R99, R100), the CMD format (R101), the decoder and,
after it, the encoder written from the same tables. Bits are numbered as R13 says. -/

namespace Sys2Proof

/-- R99, R101: the two operation formats. Which one applies is given by where the bits come from: the PHASE
register, or a host write to register CMD. -/
inductive Format where
  | phase4
  | cmd8
deriving DecidableEq, Repr

/-- Why bytes are not an operation. `noBytes`: nothing to decode. `phaseTooWide`: a PHASE code has four bits
(R99) and the byte that is to hold one has a higher bit set. -/
inductive DecodeError where
  | noBytes
  | phaseTooWide (b : Byte)
deriving DecidableEq, Repr

def phaseIdle : BitVec 4 := 0
def phaseInit : BitVec 4 := 1
def phasePad : BitVec 4 := 2
def phaseFetch : BitVec 4 := 3
def phaseDecode : BitVec 4 := 4
def phaseExpand : BitVec 4 := 5
def phaseLoadw : BitVec 4 := 6
def phaseRound : BitVec 4 := 7
def phaseFold : BitVec 4 := 8
def phaseFormat : BitVec 4 := 9
def phaseDone : BitVec 4 := 10
def phaseFault : BitVec 4 := 15

/-- R99: the opcode map of the 4-bit PHASE code; it is total (R237). -/
def decodePhase (code : BitVec 4) : Instr :=
  match code.toNat with
  | 0 => .idle
  | 1 => .init
  | 2 => .pad
  | 3 => .fetch
  | 4 => .decode
  | 5 => .expand
  | 6 => .loadw
  | 7 => .round
  | 8 => .fold
  | 9 => .format
  | 10 => .done
  | 11 => .reserved11
  | 12 => .reserved12
  | 13 => .reserved13
  | 14 => .reserved14
  | _ => .fault

/-- R101: a write to CMD is START when bit 0 is 1 and no operation when it is 0; bits 7:1 are ignored. -/
def decodeCmd (v : Byte) : Instr :=
  if v.getLsbD 0 then .start (v.extractLsb' 1 7) else .cmdnop (v.extractLsb' 1 7)

/-- The decoder, total on any bytes: one operation and the bytes after it, or a named rejection. -/
def decode (f : Format) (bytes : List Byte) : Except DecodeError (Instr × List Byte) :=
  match f, bytes with
  | _, [] => .error .noBytes
  | .phase4, b :: rest =>
    if b.toNat < 16 then .ok (decodePhase (b.setWidth 4), rest) else .error (.phaseTooWide b)
  | .cmd8, b :: rest => .ok (decodeCmd b, rest)

/-- The format of an operation's row of the table. -/
def formatOf : Instr → Format
  | .start _ => .cmd8
  | .cmdnop _ => .cmd8
  | .idle | .init | .pad | .fetch | .decode | .expand | .loadw | .round | .fold | .format | .done
  | .reserved11 | .reserved12 | .reserved13 | .reserved14 | .fault => .phase4

/-- The encoder: the one byte that holds the operation (R99 for a PHASE code, R101 for a CMD value). -/
def encodeByte : Instr → Byte
  | .idle => 0x00
  | .init => 0x01
  | .pad => 0x02
  | .fetch => 0x03
  | .decode => 0x04
  | .expand => 0x05
  | .loadw => 0x06
  | .round => 0x07
  | .fold => 0x08
  | .format => 0x09
  | .done => 0x0A
  | .reserved11 => 0x0B
  | .reserved12 => 0x0C
  | .reserved13 => 0x0D
  | .reserved14 => 0x0E
  | .fault => 0x0F
  | .start ignored => ignored ++ 1#1
  | .cmdnop ignored => ignored ++ 0#1

/-- R108: every operation is one unit; there are no variable-length forms. -/
def encode (i : Instr) : List Byte := [encodeByte i]

/-- The format a table word is read in. The table has 4-bit and 8-bit rows; where a 4-bit row comes as a whole
byte, a number below 16 fits both formats, and the two CMD values with all ignored bits 0 (the form R101 says the
host should write) are read as CMD8, the others below 16 as PHASE4 (log 15). -/
def tableFormat (nbits w : Nat) : Format :=
  if nbits ≤ 4 then .phase4
  else if w ≤ 1 then .cmd8
  else if w < 16 then .phase4
  else .cmd8

/-- The operation the decoder reads from a word of spec/opcode_table.json (log 15). -/
def decodeTableWord (nbits w : Nat) : Option Instr :=
  if nbits ≤ 8 && w < 256 then
    match decode (tableFormat nbits w) [BitVec.ofNat 8 w] with
    | .ok (i, _) => some i
    | .error _ => none
  else none

end Sys2Proof
end

