-- ==== Sys2Proof/Config.lean ====
section
/-! DEFINITION. What a realisation fixes (the two open parameters of spec/00_scope.md rule R7) and the free
values: constants without a body, of which nothing can be proved. -/

namespace Sys2Proof

/-- R7: the two parameters the spec leaves as arguments of the model. A state carries them in its field `cfg`,
which no step changes, so that a statement about every state is a statement about every choice of them (log 1). -/
structure Config.Params where
  /-- MSG_CAP: capacity of the message memory in bytes. -/
  msgCap : Nat
  /-- LEN_BITS: width of MSGLEN in bits. -/
  lenBits : Nat
deriving DecidableEq, Repr

/-- R7: LEN_BITS is at least 1 and MSG_CAP < 2^LEN_BITS. -/
def Config.Params.legal (p : Config.Params) : Bool :=
  decide (1 ≤ p.lenBits) && decide (p.msgCap < 2 ^ p.lenBits)

/-- DESIGN CHOICE (log 1), unsafe for a claim that names it: the values of spec/95_test_vectors.md section 11,
used by `State.reset` only. -/
def Config.scriptParams : Config.Params := { msgCap := 65536, lenBits := 64 }

/-- R212, DESIGN CHOICE (log 5), safe: what a host read of H0 to H4 returns when DONE = 0. -/
opaque Config.freeWord : Nat → Word

/-- R212, DESIGN CHOICE (log 5), safe: what a host read of HEX0 to HEX39 returns when DONE = 0. -/
opaque Config.freeByte : Nat → Byte

/-- R33, DESIGN CHOICE (log 5), safe: what a host read of MSGLEN returns while it holds ⊥, before it is cut
to LEN_BITS bits. -/
opaque Config.freeLen : Nat → Nat

/-- DESIGN CHOICE (log 11), safe: the byte FETCH takes at a stream index at or above P, as a function of NBLK
and the index. R124 defines PS only below P and no run asks for more. -/
opaque Config.beyondStream : Nat → Nat → Byte

end Sys2Proof
end

