-- ==== Sys2Proof/Machine/Port.lean ====
section
/-! DEFINITION. The host port: the registers of spec/10_state.md rule R33, the moves a host can make
(spec/20_memory.md R63, R64; spec/30_encoding.md R101, R106; spec/45_orchestration.md R212; spec/70_reset_and_hazards.md
R260), and what a read returns to it. -/

namespace Sys2Proof.Machine

/-- R33: the host-visible registers. -/
inductive PortReg where
  | status
  | err
  | msglen
  | cmd
  | h (i : Fin 5)
  | hex (n : Fin 40)
deriving DecidableEq, Repr

/-- R33: the register a number names; numbers 9 to 15 and 56 upward name none. -/
def portReg (n : Nat) : Option PortReg :=
  if n = 0 then some .status
  else if n = 1 then some .err
  else if n = 2 then some .msglen
  else if n = 3 then some .cmd
  else if hn : 4 ≤ n ∧ n ≤ 8 then some (.h ⟨n - 4, by omega⟩)
  else if hn : 16 ≤ n ∧ n ≤ 55 then some (.hex ⟨n - 16, by omega⟩)
  else none

/-- One move of the host's script (R106). `tick` lets the core perform one step, `wait` lets it step until it has
none; the others are the host operations and reset. `readMsg` is in the type so that its refusal can be stated. -/
inductive HostMove where
  | reset
  | tick
  | wait
  | writeMsg (addr : Nat) (b : Byte)
  | readMsg (addr : Nat)
  | writeReg (reg : Nat) (v : Nat)
  | readReg (reg : Nat)
deriving DecidableEq, Repr

/-- What a host read returned (R212), with the register it read. -/
inductive HostReply where
  | byte (r : PortReg) (v : Byte)
  | word (r : PortReg) (v : Word)
  | length (v : Nat)
deriving DecidableEq, Repr

end Sys2Proof.Machine
end

