-- ==== Sys2Proof/Machine/State.lean ====
section
/-! DEFINITION. The machine's state as plain data (spec/10_state.md rule R20), the state after reset (R38), and the
reasons a step can stop. -/

namespace Sys2Proof.Machine

/-- R231: the codes ERR can hold; codes 6 to 255 are never written. -/
inductive ErrCode where
  | none
  | alloc
  | reentry
  | inputMutated
  | uninit
  | reservedPhase
deriving DecidableEq, Repr

/-- Why a step stops with a fault. Every fault the spec names is a state the machine goes on to (R236), so this type
holds only what the spec says cannot exist. -/
inductive Fault where
  /-- Raised by FETCH when it would read MSG at an address at or above MSG_CAP, which R60 says does not exist; R61 says
  no run does so. Safe: the model stops (log 10). -/
  | noSuchMsgAddress
deriving DecidableEq, Repr

/-- Why a step is refused. -/
inductive Refusal where
  /-- Raised by an arm of `exec` whose instruction has no meaning yet. Safe. No arm raises it. -/
  | notModelled (mnemonic : String)
  /-- Raised by a host access to a number that names no register (R33). Safe (log 14). -/
  | noSuchRegister (reg : Nat)
  /-- Raised by a host write to a read-only register (R33). Safe (log 14). -/
  | registerReadOnly (reg : Nat)
  /-- Raised by a host read of CMD (R33). Safe (log 14). -/
  | registerWriteOnly (reg : Nat)
  /-- Raised by a host write of a value wider than the register (R64, R101). Safe (log 14). -/
  | valueTooWide (reg : Nat)
  /-- Raised by a host read of MSG (R60, R63). Safe (log 14). -/
  | msgNotReadable
deriving DecidableEq, Repr

/-- R20: the complete state of one core, then the model's own fields (log 1, log 5, log 6). Registers that hold ⊥ after
reset are plain values (R261); what depends on ⊥ is kept: `mem` lists the written bytes and `msglenWritten` says whether
MSGLEN has been written since reset (log 3). -/
structure State where
  /-- MSG: the written bytes, addresses strictly rising; an address not listed holds ⊥. -/
  mem : List Host.Cell
  /-- MSGLEN: L, the message length in bytes (R8: lengths and counters are natural numbers; log 7). -/
  msglen : Nat
  /-- Whether MSGLEN has been written since reset; false means it holds ⊥. -/
  msglenWritten : Bool
  /-- H[0..4]: the accumulators. -/
  h : Vector Word 5
  a : Word
  b : Word
  c : Word
  d : Word
  e : Word
  /-- W[0..79]: the schedule buffer. -/
  w : Vector Word 80
  /-- BLK[0..63]: the Block in progress. -/
  blk : Vector Byte 64
  /-- HEX[0..39]: character codes of the digest. -/
  hex : Vector Byte 40
  nblk : Nat
  len64 : Len64
  kblk : Nat
  t : Fin 80
  phase : BitVec 4
  lenovf : Bool
  err : ErrCode
  /-- The model's own: MSG_CAP and LEN_BITS. -/
  cfg : Config.Params
  /-- The model's own: the host's moves still to come, oldest first. -/
  script : List HostMove
  /-- The model's own: what the host's reads have returned, oldest first. -/
  replies : List HostReply
  /-- The model's own: how many free values host reads have drawn. -/
  draws : Nat
deriving DecidableEq, Repr

/-- R38: PHASE, LENOVF and ERR as the spec says, nothing written to MSG or MSGLEN. DESIGN CHOICE (log 2), unsafe: the
contents of the registers the spec leaves ⊥ are 0, and 1 for NBLK. -/
def State.reset : State where
  mem := []
  msglen := 0
  msglenWritten := false
  h := Vector.replicate 5 0
  a := 0
  b := 0
  c := 0
  d := 0
  e := 0
  w := Vector.replicate 80 0
  blk := Vector.replicate 64 0
  hex := Vector.replicate 40 0
  nblk := 1
  len64 := 0
  kblk := 0
  t := 0
  phase := phaseIdle
  lenovf := false
  err := .none
  cfg := Config.scriptParams
  script := []
  replies := []
  draws := 0

end Sys2Proof.Machine
end

