-- ==== Sys2Proof/Machine/Flags.lean ====
section
/-! DEFINITION. The status flags (spec/10_state.md rules R31 to R33), the ERR code (spec/60_exceptions.md R231, R237) and
the length-overflow diagnostic (R238). -/

namespace Sys2Proof.Machine

/-- R31: BUSY is decoded from PHASE: INIT to FORMAT. -/
def phaseBusy (p : BitVec 4) : Bool := decide (1 ≤ p.toNat) && decide (p.toNat ≤ 9)

/-- R31: DONE is decoded from PHASE. -/
def phaseIsDone (p : BitVec 4) : Bool := p == phaseDone

/-- R31, R237: FAULT is decoded from PHASE: FAULT and the reserved codes 11 to 14. -/
def phaseFaulted (p : BitVec 4) : Bool := decide (11 ≤ p.toNat)

def State.busy (s : State) : Bool := phaseBusy s.phase

def State.isDone (s : State) : Bool := phaseIsDone s.phase

def State.faulted (s : State) : Bool := phaseFaulted s.phase

/-- R33: bit 0 BUSY, bit 1 DONE, bit 2 FAULT, bit 3 LENOVF, bits 7:4 zero. -/
def State.status (s : State) : Byte :=
  0#4 ++ BitVec.ofBool s.lenovf ++ BitVec.ofBool s.faulted ++ BitVec.ofBool s.isDone ++ BitVec.ofBool s.busy

/-- R231: the code of each named value of ERR. -/
def errCode : ErrCode → Byte
  | .none => 0
  | .alloc => 1
  | .reentry => 2
  | .inputMutated => 3
  | .uninit => 4
  | .reservedPhase => 5

/-- R237: PHASE holds one of the reserved codes 11 to 14. -/
def phaseReserved (p : BitVec 4) : Bool := decide (11 ≤ p.toNat) && decide (p.toNat ≤ 14)

/-- What a read of ERR gives: the register, except that under a reserved PHASE an ERR of 0 reads as RESERVED_PHASE
(R237). -/
def State.errRead (s : State) : Byte :=
  if phaseReserved s.phase && s.err == .none then errCode .reservedPhase else errCode s.err

/-- R238: whether PAD reports a length overflow for a message of L bytes. -/
def lengthOverflows (L : Nat) : Bool := decide (2 ^ 61 ≤ L)

end Sys2Proof.Machine
end

