-- ==== Sys2Proof/Machine/Ops.lean ====
section
/-! DEFINITION. The operations every meaning is built from: the message memory (spec/20_memory.md R60, R61, R63), fault
entry (spec/60_exceptions.md R236), control transfer (spec/45_orchestration.md R203) and reset (spec/70_reset_and_hazards.md
R260). There is no return from a fault (R241). -/

namespace Sys2Proof.Machine

/-- The byte a memory lists at an address; none is ⊥ (R17, R75; log 4). -/
def Memory.read : List Host.Cell → Nat → Option Byte
  | [], _ => none
  | cell :: rest, addr => if cell.1 = addr then some cell.2 else Memory.read rest addr

/-- One byte written (R63), keeping the addresses strictly rising. -/
def Memory.write : List Host.Cell → Nat → Byte → List Host.Cell
  | [], addr, v => [(addr, v)]
  | cell :: rest, addr, v =>
    if addr < cell.1 then (addr, v) :: cell :: rest
    else if addr = cell.1 then (addr, v) :: rest
    else cell :: Memory.write rest addr v

/-- Every listed address is above `low`, and the addresses are strictly rising. -/
def Memory.risesAbove : Nat → List Host.Cell → Bool
  | _, [] => true
  | low, cell :: rest => decide (low < cell.1) && Memory.risesAbove cell.1 rest

/-- The canonical form: addresses strictly rising. An unlisted address reads as no value, which no entry equals. -/
def Memory.wf : List Host.Cell → Bool
  | [] => true
  | cell :: rest => Memory.risesAbove cell.1 rest

/-- R60: MSG has the addresses 0 to MSG_CAP-1. -/
def Memory.within (cap : Nat) (m : List Host.Cell) : Bool := m.all fun cell => decide (cell.1 < cap)

/-- R203: control transfer. -/
def State.goto (p : BitVec 4) (s : State) : State := { s with phase := p }

/-- R236: fault entry. The first code since reset is the one recorded, PHASE becomes FAULT, nothing else changes. -/
def State.raise (code : ErrCode) (s : State) : State :=
  { s with err := if s.err = .none then code else s.err, phase := phaseFault }

/-- R260: every piece of the core's state takes its reset value; the model's own fields stay (log 6). -/
def State.resetCore (s : State) : State :=
  { State.reset with cfg := s.cfg, script := s.script, replies := s.replies, draws := s.draws }

/-- The host has made its next move (log 6). -/
def State.popMove (s : State) : State := { s with script := s.script.tail }

/-- A host read returns a value (R212). -/
def State.reply (r : HostReply) (s : State) : State := { s with replies := s.replies ++ [r] }

/-- A host read has drawn a free value (R212, log 5). -/
def State.draw (s : State) : State := { s with draws := s.draws + 1 }

end Sys2Proof.Machine
end

