-- ==== Sys2Proof/Machine/Operands.lean ====
section
/-! DEFINITION. What the micro-operations compute their operands with: rotation (spec/42_expander.md R150), bytes and
Words (spec/30_encoding.md R91, R93), the padded stream (spec/40_preprocessor.md R121 to R124), the mixing functions and
round constants (spec/43_compression.md R166, R167) and hex characters (spec/30_encoding.md R96, R97). -/

namespace Sys2Proof.Machine

/-- R150: `rotateLeft(x, n)`, the amount taken modulo 32. -/
def rotl (x : Word) (n : Nat) : Word :=
  if n % 32 = 0 then x else (x <<< (n % 32)) ||| (x >>> (32 - n % 32))

/-- R93: four bytes at ascending indices, most significant first, each zero-extended before its shift. -/
def wordOfBytes (b0 b1 b2 b3 : Byte) : Word :=
  (b0.setWidth 32 <<< 24) ||| (b1.setWidth 32 <<< 16) ||| (b2.setWidth 32 <<< 8) ||| b3.setWidth 32

/-- R121: the number of zero-fill bytes for a message of L bytes. -/
def zeroFill (L : Nat) : Nat := (119 - L % 64) % 64

/-- R122: the number of Blocks of the padded stream. -/
def blockCount (L : Nat) : Nat := (L + 8) / 64 + 1

/-- R123: the length field, the bit length modulo 2^64. -/
def bitLength (L : Nat) : Len64 := BitVec.ofNat 64 (8 * L)

/-- R91: byte i of the length field, most significant first, for i from 0 to 7. -/
def lengthByte (len : Len64) (i : Nat) : Byte := (len >>> (8 * (7 - i))).setWidth 8

/-- R124: byte j of the padded stream of MSG with L = MSGLEN and P = 64 NBLK; none where the MSG byte holds ⊥. At or
above P the spec gives no byte and none is asked for in a run (log 11). -/
def streamByte (s : State) (j : Nat) : Option Byte :=
  if j < s.msglen then Memory.read s.mem j
  else if j = s.msglen then some 0x80
  else if j + 8 < 64 * s.nblk then some 0x00
  else if j < 64 * s.nblk then some (lengthByte s.len64 (j + 8 - 64 * s.nblk))
  else some (Config.beyondStream s.nblk j)

/-- The stream index of byte i of Block KBLK (R128). -/
def blockIndex (s : State) (i : Nat) : Nat := 64 * s.kblk + i

/-- Whether the Block in progress needs a MSG byte at an address that does not exist (R60, R61; log 10). -/
def blockBeyondMsg (s : State) : Bool :=
  (List.range 64).any fun i =>
    decide (blockIndex s i < s.msglen) && decide (s.cfg.msgCap ≤ blockIndex s i)

/-- R127: Block KBLK of the padded stream; none where one of the MSG bytes read holds ⊥. -/
def streamBlock (s : State) : Option (Vector Byte 64) :=
  if (List.range 64).all fun i => (streamByte s (blockIndex s i)).isSome then
    some (Vector.ofFn fun i : Fin 64 => (streamByte s (blockIndex s i.val)).getD 0)
  else none

/-- R166: the mixing function of round t. -/
def mix (t : Nat) (b c d : Word) : Word :=
  if t < 20 then (b &&& c) ||| (~~~b &&& d)
  else if t < 40 then b ^^^ c ^^^ d
  else if t < 60 then (b &&& c) ||| (b &&& d) ||| (c &&& d)
  else b ^^^ c ^^^ d

/-- R167: the round constant of round t. -/
def roundConst (t : Nat) : Word :=
  if t < 20 then 0x5A827999
  else if t < 40 then 0x6ED9EBA1
  else if t < 60 then 0x8F1BBCDC
  else 0xCA62C1D6

/-- R165, R169: `temp`, a wire of the round. -/
def roundTemp (t : Nat) (a b c d e w : Word) : Word := rotl a 5 + mix t b c d + e + roundConst t + w

/-- R96: nibble j of a Word, most significant first, for j from 0 to 7. -/
def nibble (x : Word) (j : Nat) : Nat := ((x >>> (28 - 4 * j)) &&& 0xF).toNat

/-- R97: the character code of a hex digit, upper case. The codes are the ones the spec takes from general knowledge
(PRESUMED, log 19). -/
def hexChar (v : Nat) : Byte := if v ≤ 9 then BitVec.ofNat 8 (0x30 + v) else BitVec.ofNat 8 (0x37 + v)

end Sys2Proof.Machine
end

