-- ==== Sys2Proof/Machine/Sequencer.lean ====
section
/-! DEFINITION. The sequencer's own operations: IDLE, INIT, DONE, FAULT and the reserved codes
(spec/45_orchestration.md R201, R204, R206; spec/60_exceptions.md R237, R241). -/

namespace Sys2Proof.Machine

/-- R98: the initial accumulators. -/
def hInit : Vector Word 5 := #v[0x67452301, 0xEFCDAB89, 0x98BADCFE, 0x10325476, 0xC3D2E1F0]

/-- R202: in IDLE, DONE and FAULT the core has no step: nothing changes (log 8). -/
def noStep (s : State) : Host.Outcome State Fault Refusal := .next s

/-- R204: no core step; the core waits for START. -/
def execIdle (s : State) : Host.Outcome State Fault Refusal := noStep s

/-- R201. -/
def execInit (s : State) : Host.Outcome State Fault Refusal :=
  .next ({ s with h := hInit }.goto phasePad)

/-- R206: no core step; the result is valid and the core waits for START. -/
def execDone (s : State) : Host.Outcome State Fault Refusal := noStep s

/-- R241: no core step; terminal until reset. -/
def execFault (s : State) : Host.Outcome State Fault Refusal := noStep s

/-- R237: a reserved PHASE is treated as FAULT with the code RESERVED_PHASE (log 9). -/
def enterReserved (s : State) : Host.Outcome State Fault Refusal := .next (s.raise .reservedPhase)

/-- R237, PHASE code 11. -/
def execReserved11 (s : State) : Host.Outcome State Fault Refusal := enterReserved s

/-- R237, PHASE code 12. -/
def execReserved12 (s : State) : Host.Outcome State Fault Refusal := enterReserved s

/-- R237, PHASE code 13. -/
def execReserved13 (s : State) : Host.Outcome State Fault Refusal := enterReserved s

/-- R237, PHASE code 14. -/
def execReserved14 (s : State) : Host.Outcome State Fault Refusal := enterReserved s

end Sys2Proof.Machine
end

