-- ==== Sys2Proof/Machine/BlockDecoder.lean ====
section
/-! DEFINITION. The block-to-words decoder (spec/41_decoder.md): the contract `decode` and the micro-operation DECODE. -/

namespace Sys2Proof.Machine

/-- R140: the sixteen big-endian Words of a Block. -/
def decodeBlock (blk : Vector Byte 64) : Vector Word 16 :=
  Vector.ofFn fun i : Fin 16 =>
    wordOfBytes blk[4 * i.val] blk[4 * i.val + 1] blk[4 * i.val + 2] blk[4 * i.val + 3]

/-- The schedule buffer with its first sixteen Words replaced. -/
def loadFirst16 (first : Vector Word 16) (w : Vector Word 80) : Vector Word 80 :=
  Vector.ofFn fun i : Fin 80 => if hi : i.val < 16 then first[i.val] else w[i.val]

/-- R141: W[16..79] are not touched. -/
def execDecode (s : State) : Host.Outcome State Fault Refusal :=
  .next ({ s with w := loadFirst16 (decodeBlock s.blk) s.w }.goto phaseExpand)

end Sys2Proof.Machine
end

