-- ==== Sys2Proof/Machine/Command.lean ====
section
/-! DEFINITION. The host command (spec/30_encoding.md R101): START (spec/45_orchestration.md R205) and the CMD
no-operation. -/

namespace Sys2Proof.Machine

/-- R205, the cases in the order R239 gives; bits 7:1 of the value written are ignored (R101). -/
def execStart (_ignored : BitVec 7) (s : State) : Host.Outcome State Fault Refusal :=
  if s.faulted then .next s
  else if s.busy then .next (s.raise .reentry)
  else if !s.msglenWritten then .next (s.raise .uninit)
  else if s.cfg.msgCap < s.msglen then .next (s.raise .alloc)
  else .next ({ s with lenovf := false }.goto phaseInit)

/-- R101: it changes no state in any phase and raises no fault. -/
def execCmdnop (_ignored : BitVec 7) (s : State) : Host.Outcome State Fault Refusal := .next s

end Sys2Proof.Machine
end

