-- ==== Sys2Proof/Machine/Compression.lean ====
section
/-! DEFINITION. The compression engine (spec/43_compression.md): the contract `compress` and the micro-operations LOADW,
ROUND and FOLD. -/

namespace Sys2Proof.Machine

/-- The working registers a, b, c, d, e of the functional level (R165). -/
structure Work where
  a : Word
  b : Word
  c : Word
  d : Word
  e : Word
deriving DecidableEq, Repr

/-- R165: one round; all five new values come from the old ones (R170). -/
def roundOf (t : Nat) (w : Word) (x : Work) : Work :=
  { a := roundTemp t x.a x.b x.c x.d x.e w, b := x.a, c := rotl x.b 30, d := x.c, e := x.d }

/-- R165: the accumulators with the working registers added in, each sum modulo 2^32. -/
def foldInto (h : Vector Word 5) (x : Work) : Vector Word 5 :=
  #v[h[0] + x.a, h[1] + x.b, h[2] + x.c, h[3] + x.d, h[4] + x.e]

/-- R165: the working registers start as a copy of the accumulators. -/
def workOf (h : Vector Word 5) : Work := { a := h[0], b := h[1], c := h[2], d := h[3], e := h[4] }

/-- R165: eighty rounds and the fold. -/
def compress (h : Vector Word 5) (w : Vector Word 80) : Vector Word 5 :=
  foldInto h ((List.finRange 80).foldl (fun x t => roundOf t.val w[t.val] x) (workOf h))

/-- The working registers A to E of a state (R22). -/
def State.work (s : State) : Work := { a := s.a, b := s.b, c := s.c, d := s.d, e := s.e }

/-- The working registers written together (R15, R170). -/
def State.setWork (x : Work) (s : State) : State :=
  { s with a := x.a, b := x.b, c := x.c, d := x.d, e := x.e }

/-- R168. -/
def execLoadw (s : State) : Host.Outcome State Fault Refusal :=
  .next ({ s.setWork (workOf s.h) with t := 0 }.goto phaseRound)

/-- R169, with the advance of T and PHASE of R203. -/
def execRound (s : State) : Host.Outcome State Fault Refusal :=
  if ht : s.t.val = 79 then
    .next ((s.setWork (roundOf s.t.val s.w[s.t.val] s.work)).goto phaseFold)
  else
    .next ({ s.setWork (roundOf s.t.val s.w[s.t.val] s.work) with
      t := ⟨s.t.val + 1, by have := s.t.isLt; omega⟩ }.goto phaseRound)

/-- R171. Where KBLK + 1 is above NBLK, which no run reaches, the rule's "else" applies (log 12). -/
def execFold (s : State) : Host.Outcome State Fault Refusal :=
  if s.kblk + 1 = s.nblk then
    .next ({ s with h := foldInto s.h s.work }.goto phaseFormat)
  else
    .next ({ s with h := foldInto s.h s.work, kblk := s.kblk + 1 }.goto phaseFetch)

end Sys2Proof.Machine
end

