-- ==== Sys2Proof/Machine/Expander.lean ====
section
/-! DEFINITION. The schedule expander (spec/42_expander.md): the contract `expand` and the micro-operation EXPAND. -/

namespace Sys2Proof.Machine

/-- R153: one iteration, in place: W[i] from the elements 3, 8, 14 and 16 places below it. -/
def expandAt (w : Vector Word 80) (i : Nat) : Vector Word 80 :=
  if hi : 16 ≤ i ∧ i < 80 then
    w.set i (rotl (w[i - 3] ^^^ w[i - 8] ^^^ w[i - 14] ^^^ w[i - 16]) 1)
  else w

/-- R153, R154: i = 16 to 79 in ascending order (R271). -/
def expandInPlace (w : Vector Word 80) : Vector Word 80 := (List.range' 16 64).foldl expandAt w

/-- R152: the Schedule of sixteen Words, a function of them alone (R155). -/
def expand (first : Vector Word 16) : Vector Word 80 :=
  expandInPlace (loadFirst16 first (Vector.replicate 80 0))

/-- R153. -/
def execExpand (s : State) : Host.Outcome State Fault Refusal :=
  .next ({ s with w := expandInPlace s.w }.goto phaseLoadw)

end Sys2Proof.Machine
end

