-- ==== Sys2Proof/Machine/Formatter.lean ====
section
/-! DEFINITION. The digest formatter (spec/44_formatter.md): the contract `format`, the micro-operation FORMAT, and the
160-bit and 20-byte forms of the digest (spec/30_encoding.md R94, R95). -/

namespace Sys2Proof.Machine

/-- R190: character 8i + j is the hex digit of nibble j of h[i]. -/
def formatDigest (h : Vector Word 5) : Vector Byte 40 :=
  Vector.ofFn fun n : Fin 40 => hexChar (nibble (h[n.val / 8]'(by have := n.isLt; omega)) (n.val % 8))

/-- R26, R94: the accumulators as one 160-bit value, H[0] most significant. -/
def digestBits (h : Vector Word 5) : BitVec 160 := h[0] ++ h[1] ++ h[2] ++ h[3] ++ h[4]

/-- R95: byte n of the 20-byte form. -/
def digestByte (h : Vector Word 5) (n : Fin 20) : Byte :=
  ((h[n.val / 4]'(by have := n.isLt; omega)) >>> (24 - 8 * (n.val % 4))).setWidth 8

/-- R26: DIGEST is a view of H. -/
def State.digest (s : State) : BitVec 160 := digestBits s.h

/-- R192. -/
def execFormat (s : State) : Host.Outcome State Fault Refusal :=
  .next ({ s with hex := formatDigest s.h }.goto phaseDone)

end Sys2Proof.Machine
end

