-- ==== Sys2Proof/Machine/Preprocessor.lean ====
section
/-! DEFINITION. The message preprocessor (spec/40_preprocessor.md): the contract `pad` and the micro-operations PAD and
FETCH. -/

namespace Sys2Proof.Machine

/-- R120: the padded stream of a message: the message, one 0x80 byte, zero bytes until the length is 56 modulo 64, and
the bit length as eight big-endian bytes. -/
def pad (m : List Byte) : List Byte :=
  m ++ [0x80] ++ List.replicate (zeroFill m.length) 0x00 ++
    (List.range 8).map (lengthByte (bitLength m.length))

/-- R128: Block k of a padded stream. -/
def blockOf (stream : List Byte) (k : Nat) : Vector Byte 64 :=
  Vector.ofFn fun i : Fin 64 => stream.getD (64 * k + i.val) 0

/-- R126. MSGLEN cannot hold ⊥ here in a run; in a state where it does, its content is used (log 13). -/
def execPad (s : State) : Host.Outcome State Fault Refusal :=
  .next ({ s with
    nblk := blockCount s.msglen
    len64 := bitLength s.msglen
    lenovf := lengthOverflows s.msglen
    kblk := 0 }.goto phaseFetch)

/-- R127. UNINIT replaces the step when a MSG byte read holds ⊥ (R235, R242). -/
def execFetch (s : State) : Host.Outcome State Fault Refusal :=
  if blockBeyondMsg s then .fault .noSuchMsgAddress
  else match streamBlock s with
    | some block => .next ({ s with blk := block }.goto phaseDecode)
    | none => .next (s.raise .uninit)

end Sys2Proof.Machine
end

