-- ==== Sys2Proof/Machine/Dispatch.lean ====
section
/-! DEFINITION. One arm per operation of spec/opcode_table.json. -/

namespace Sys2Proof.Machine

def exec (i : Instr) (s : State) : Host.Outcome State Fault Refusal :=
  match i with
  | .idle => Sys2Proof.Machine.execIdle s
  | .init => Sys2Proof.Machine.execInit s
  | .pad => Sys2Proof.Machine.execPad s
  | .fetch => Sys2Proof.Machine.execFetch s
  | .decode => Sys2Proof.Machine.execDecode s
  | .expand => Sys2Proof.Machine.execExpand s
  | .loadw => Sys2Proof.Machine.execLoadw s
  | .round => Sys2Proof.Machine.execRound s
  | .fold => Sys2Proof.Machine.execFold s
  | .format => Sys2Proof.Machine.execFormat s
  | .done => Sys2Proof.Machine.execDone s
  | .reserved11 => Sys2Proof.Machine.execReserved11 s
  | .reserved12 => Sys2Proof.Machine.execReserved12 s
  | .reserved13 => Sys2Proof.Machine.execReserved13 s
  | .reserved14 => Sys2Proof.Machine.execReserved14 s
  | .fault => Sys2Proof.Machine.execFault s
  | .start ignored => Sys2Proof.Machine.execStart ignored s
  | .cmdnop ignored => Sys2Proof.Machine.execCmdnop ignored s

end Sys2Proof.Machine
end

