-- ==== Sys2Proof/WellFormed.lean ====
section
/-! DEFINITION. Which terms of the model's own syntax stand for something the spec admits. The operations of the
opcode table have no operand fields with a range (spec/30_encoding.md R99; R101: bits 7:1 may be anything), so
every `Instr` is well formed; a host move is checked against the register map (spec/10_state.md R33). -/

namespace Sys2Proof

/-- R99, R101: no row of the table has an operand that could be out of range. -/
def Instr.wellFormed : Instr → Bool
  | .idle | .init | .pad | .fetch | .decode | .expand | .loadw | .round | .fold | .format | .done
  | .reserved11 | .reserved12 | .reserved13 | .reserved14 | .fault => true
  | .start _ => true
  | .cmdnop _ => true

/-- R33: the moves of the model. A register access names a register that allows it, and a value written fits the
register's width; MSG is written, never read (R60); an address beyond MSG_CAP is a move (it raises ALLOC, R63). -/
def Machine.HostMove.wellFormed (p : Config.Params) : Machine.HostMove → Bool
  | .reset => true
  | .tick => true
  | .wait => true
  | .writeMsg _ _ => true
  | .readMsg _ => false
  | .writeReg reg v =>
    match Machine.portReg reg with
    | some .msglen => decide (v < 2 ^ p.lenBits)
    | some .cmd => decide (v < 256)
    | some .status | some .err | some (.h _) | some (.hex _) | none => false
  | .readReg reg =>
    match Machine.portReg reg with
    | some .cmd => false
    | some .status | some .err | some .msglen | some (.h _) | some (.hex _) => true
    | none => false

end Sys2Proof
end

