-- ==== Sys2Proof/Machine/HostPort.lean ====
section
/-! DEFINITION. What the host does to the core: which operation a step runs, the writes of spec/20_memory.md R63 and R64,
the reads of spec/45_orchestration.md R212, reset, and the composites of the host script (spec/30_encoding.md R106). -/

namespace Sys2Proof.Machine

/-- R63, the cases in order. -/
def hostWriteMsg (addr : Nat) (b : Byte) (s : State) : State :=
  if s.faulted then s
  else if s.busy then s.raise .inputMutated
  else if s.cfg.msgCap ≤ addr then s.raise .alloc
  else { s with mem := Memory.write s.mem addr b }

/-- R64, the cases in order; no range check against MSG_CAP is made here. -/
def hostWriteLen (v : Nat) (s : State) : State :=
  if s.faulted then s
  else if s.busy then s.raise .inputMutated
  else { s with msglen := v, msglenWritten := true }

/-- R212: a read of H[i]: its value when DONE = 1, else a free value (log 5). -/
def hostReadH (i : Fin 5) (s : State) : State :=
  if s.isDone then s.reply (.word (.h i) s.h[i.val])
  else (s.reply (.word (.h i) (Config.freeWord s.draws))).draw

/-- R212: a read of HEX[n]: its value when DONE = 1, else a free value (log 5). -/
def hostReadHex (n : Fin 40) (s : State) : State :=
  if s.isDone then s.reply (.byte (.hex n) s.hex[n.val])
  else (s.reply (.byte (.hex n) (Config.freeByte s.draws))).draw

/-- R33, R64: a read of MSGLEN: its value, or a free value of its width while it holds ⊥ (log 5). -/
def hostReadLen (s : State) : State :=
  if s.msglenWritten then s.reply (.length s.msglen)
  else (s.reply (.length (Config.freeLen s.draws % 2 ^ s.cfg.lenBits))).draw

/-- R33, R212: a host read of a register number. -/
def hostReadReg (reg : Nat) (s : State) : Host.Outcome State Fault Refusal :=
  match portReg reg with
  | some .status => .next (s.reply (.byte .status s.status))
  | some .err => .next (s.reply (.byte .err s.errRead))
  | some .msglen => .next (hostReadLen s)
  | some .cmd => .refused (.registerWriteOnly reg)
  | some (.h i) => .next (hostReadH i s)
  | some (.hex n) => .next (hostReadHex n s)
  | none => .refused (.noSuchRegister reg)

/-- R33, R64: a host write of a register number, but for a write of CMD that fits its eight bits, which is an
operation of the opcode table (`fetch`). -/
def hostWriteReg (reg v : Nat) (s : State) : Host.Outcome State Fault Refusal :=
  match portReg reg with
  | some .msglen => if v < 2 ^ s.cfg.lenBits then .next (hostWriteLen v s) else .refused (.valueTooWide reg)
  | some .cmd => .refused (.valueTooWide reg)
  | some .status | some .err | some (.h _) | some (.hex _) => .refused (.registerReadOnly reg)
  | none => .refused (.noSuchRegister reg)

/-- A host move that runs no operation of the opcode table, made on the state after it is taken off the script. -/
def hostMove (move : HostMove) (s : State) : Host.Outcome State Fault Refusal :=
  match move with
  | .reset => .next s.resetCore
  | .tick => .next s
  | .wait => .next s
  | .writeMsg addr b => .next (hostWriteMsg addr b s)
  | .readMsg _ => .refused .msgNotReadable
  | .writeReg reg v => hostWriteReg reg v s
  | .readReg reg => hostReadReg reg s

/-- The operation of the opcode table the next step runs, with the state it runs it on: the core's next step where the
script is empty, at a `tick`, and at a `wait` while BUSY = 1 (R202); the command a write to CMD encodes (R101). None
where the next move is another host operation or a `wait` with nothing left to wait for. -/
def fetch (s : State) : Option (Instr × State) :=
  match s.script with
  | [] => some (decodePhase s.phase, s)
  | .tick :: _ => some (decodePhase s.phase, s.popMove)
  | .wait :: _ => if s.busy then some (decodePhase s.phase, s) else none
  | .writeReg reg v :: _ =>
    if portReg reg = some .cmd ∧ v < 256 then some (decodeCmd (BitVec.ofNat 8 v), s.popMove) else none
  | .reset :: _ | .writeMsg _ _ :: _ | .readMsg _ :: _ | .readReg _ :: _ => none

/-- The host's next move where `fetch` gives no operation. -/
def portStep (s : State) : Host.Outcome State Fault Refusal :=
  match s.script with
  | [] => .next s
  | move :: _ => hostMove move s.popMove

/-- R106: `START`. -/
def scriptStart : HostMove := .writeReg 3 1

/-- R106: `WLEN v`. -/
def scriptWlen (v : Nat) : HostMove := .writeReg 2 v

/-- R106: `STEP n`. -/
def scriptStep (n : Nat) : List HostMove := List.replicate n .tick

/-- R106: the byte writes of `LOAD`, from address `addr` upward. -/
def scriptBytes : Nat → List Byte → List HostMove
  | _, [] => []
  | addr, b :: rest => .writeMsg addr b :: scriptBytes (addr + 1) rest

/-- R106: `LOAD`: every byte in ascending order, then the length. -/
def scriptLoad (m : List Byte) : List HostMove := scriptBytes 0 m ++ [scriptWlen m.length]

/-- R106: `RH i`. -/
def scriptRh (i : Nat) : HostMove := .readReg (4 + i)

/-- R106: `RHEX i`. -/
def scriptRhex (i : Nat) : HostMove := .readReg (16 + i)

end Sys2Proof.Machine
end

