-- ==== Sys2Proof/Machine/Step.lean ====
section
/-! DEFINITION. One step of the machine: the operation the core or the host command runs next, or the host's next move
(spec/20_memory.md R67, spec/45_orchestration.md R202). -/

namespace Sys2Proof.Machine

/-- R202, R67: host operations and core steps in one total order, each atomic. -/
def step (s : State) : Host.Outcome State Fault Refusal :=
  match fetch s with
  | some (i, s') => exec i s'
  | none => portStep s

/-- The state whose next step runs the operation of a table word (log 15): a PHASE code is put into PHASE, a CMD value
becomes the host's next move. -/
def State.withFetchWord (s : State) (nbits w : Nat) : State :=
  match tableFormat nbits w with
  | .phase4 =>
    { s with phase := BitVec.ofNat 4 w, script := if s.script.isEmpty then [] else .tick :: s.script }
  | .cmd8 => { s with script := .writeReg 3 w :: s.script }

end Sys2Proof.Machine
end

