-- ==== Sys2Proof/Machine/Orchestration.lean ====
section
/-! DEFINITION. The functional level of the whole core (spec/45_orchestration.md R200, R216). -/

namespace Sys2Proof.Machine

/-- R200: one iteration of the Block loop over a padded stream. -/
def foldBlock (stream : List Byte) (h : Vector Word 5) (k : Nat) : Vector Word 5 :=
  compress h (expand (decodeBlock (blockOf stream k)))

/-- R200: the accumulators after the first n Blocks of a padded stream. -/
def foldBlocks (stream : List Byte) (n : Nat) : Vector Word 5 :=
  (List.range n).foldl (foldBlock stream) hInit

/-- R200: the final accumulators of a message. -/
def digestState (m : List Byte) : Vector Word 5 := foldBlocks (pad m) ((pad m).length / 64)

/-- R200, R216: `digest`, which the spec also calls `sha1_hex`: forty character codes. -/
def digest (m : List Byte) : Vector Byte 40 := formatDigest (digestState m)

end Sys2Proof.Machine
end

