-- ==== Sys2Proof/Safety.lean ====
section
/-! DEFINITION. What claims are stated in: a message in place (spec/70_reset_and_hazards.md R263), the end of a run
(spec/45_orchestration.md R215), the moves a careful host makes (R264, R265), and the invariant of the machine. -/

namespace Sys2Proof.Machine

/-- R209, R263: the message m is in MSG and its length in MSGLEN, and it fits. -/
structure State.HoldsMessage (s : State) (m : List Byte) : Prop where
  lengthWritten : s.msglenWritten = true
  lengthIs : s.msglen = m.length
  fits : m.length ≤ s.cfg.msgCap
  bytesAre : ∀ i (hi : i < m.length), Memory.read s.mem i = some m[i]

/-- R34, R205: the phases in which START and the host's writes are served. -/
def State.idleOrDone (s : State) : Bool := s.phase == phaseIdle || s.phase == phaseDone

/-- R215: a run ends at the first state with PHASE = DONE or PHASE = FAULT. -/
def State.runOver (s : State) : Bool := s.phase == phaseDone || s.phase == phaseFault

/-- R264, R265: no START and no write of the input while BUSY = 1. -/
def HostMove.respectsBusy (s : State) : HostMove → Bool
  | .writeMsg _ _ => !s.busy
  | .writeReg reg v => !s.busy || (portReg reg == some .cmd && v % 2 == 0)
  | .reset | .tick | .wait | .readMsg _ | .readReg _ => true

/-- What holds at reset and after every step: MSG in canonical form and inside MSG_CAP (R28), legal parameters (R7),
MSGLEN inside its width (R29), no reserved PHASE (R100), ERR recorded exactly in FAULT (R236), KBLK below NBLK (R31), an
accepted length while BUSY = 1 (R205), and the padder's registers while they are used (R126, R203). -/
structure State.Inv (s : State) : Prop where
  memCanonical : Memory.wf s.mem = true
  memInside : Memory.within s.cfg.msgCap s.mem = true
  cfgLegal : s.cfg.legal = true
  lengthInWidth : s.msglen < 2 ^ s.cfg.lenBits
  phaseNamed : phaseReserved s.phase = false
  errInFault : s.err = .none ↔ s.phase ≠ phaseFault
  errNamed : s.err ≠ .reservedPhase
  blockInRange : s.kblk < s.nblk
  lengthAccepted : s.busy = true → s.msglenWritten = true ∧ s.msglen ≤ s.cfg.msgCap
  padderSet : 3 ≤ s.phase.toNat → s.phase.toNat ≤ 9 →
    s.nblk = blockCount s.msglen ∧ s.len64 = bitLength s.msglen ∧ s.lenovf = lengthOverflows s.msglen
  roundsOver : s.phase = phaseFold → s.t.val = 79
  blocksOver : s.phase = phaseFormat → s.kblk + 1 = s.nblk

end Sys2Proof.Machine
end

