-- ==== Sys2Proof/Certificates/Slice0/Obligations.lean ====
section
/-! DEFINITION. The statements for the provers, in the order of spec/. OBLIGATIONS.json lists them. A next state is written
as an update of the old one wherever the rule names everything that changes, so that each such statement is also the frame:
every field it does not name is unchanged, MSG included. -/

open Sys2Proof Sys2Proof.Machine

/-- spec/30_encoding.md section 2, R99 to R101: words of the opcode map and CMD values, read bit by bit from the rules. -/
def Obligations.SpecWordsDecode : Prop :=
  decode .phase4 [0x00] = .ok (.idle, []) ∧ decode .phase4 [0x01] = .ok (.init, []) ∧
  decode .phase4 [0x03] = .ok (.fetch, []) ∧ decode .phase4 [0x04] = .ok (.decode, []) ∧
  decode .phase4 [0x05] = .ok (.expand, []) ∧ decode .phase4 [0x07] = .ok (.round, []) ∧
  decode .phase4 [0x09] = .ok (.format, []) ∧ decode .phase4 [0x0C] = .ok (.reserved12, []) ∧
  decode .phase4 [0x0F] = .ok (.fault, []) ∧ decode .phase4 [0x10] = .error (.phaseTooWide 0x10) ∧
  decode .cmd8 [0x01] = .ok (.start 0, []) ∧ decode .cmd8 [0x03] = .ok (.start 1, []) ∧
  decode .cmd8 [0xFF] = .ok (.start 127, []) ∧ decode .cmd8 [0x00] = .ok (.cmdnop 0, []) ∧
  decode .cmd8 [0x02] = .ok (.cmdnop 1, []) ∧ decode .cmd8 [0xFE] = .ok (.cmdnop 127, [])

/-- spec/30_encoding.md section 2: every operation, with every value of the ignored CMD bits, decodes from its encoding;
what decodes is the encoding of what it decodes to; and the only byte refused is one too wide for a PHASE code. -/
def Obligations.DecodeAndEncodeAgree : Prop :=
  (∀ (i : Instr) (rest : List Byte), decode (formatOf i) (encode i ++ rest) = .ok (i, rest)) ∧
  (∀ (f : Format) (bytes rest : List Byte) (i : Instr),
    decode f bytes = .ok (i, rest) → formatOf i = f ∧ encode i ++ rest = bytes) ∧
  (∀ (f : Format) (b : Byte) (rest : List Byte),
    (∃ e, decode f (b :: rest) = .error e) ↔ f = .phase4 ∧ 16 ≤ b.toNat)

/-- R202, R67 as the model steps them (log 6): with no host move pending, at a `tick` and at a `wait` while BUSY = 1, the
step is `exec` of the operation the decoder reads from PHASE; at a host write of CMD it is `exec` of the operation the
decoder reads from the value written. The host's move is taken off the script first (a `wait` stays while BUSY = 1). -/
def Obligations.StepRunsTheDecodedOperation : Prop :=
  (∀ (s : State) (i : Instr), decode .phase4 [s.phase.setWidth 8] = .ok (i, []) →
    (s.script = [] → step s = exec i s) ∧
    (∀ rest, s.script = .tick :: rest → step s = exec i { s with script := rest }) ∧
    (∀ rest, s.script = .wait :: rest → s.busy = true → step s = exec i s)) ∧
  (∀ (s : State) (v : Byte) (i : Instr) (rest : List HostMove), decode .cmd8 [v] = .ok (i, []) →
    s.script = .writeReg 3 v.toNat :: rest → step s = exec i { s with script := rest })

/-- R38, R260: what the spec says of the state after reset, from every state. Nothing is said of the registers the rules
leave unspecified. The model's own fields stay (log 6). -/
def Obligations.ResetLeavesIdleAndNothingWritten : Prop :=
  ∀ (s : State) (rest : List HostMove), s.script = .reset :: rest →
    ∃ t, step s = .next t ∧ t.phase = phaseIdle ∧ t.lenovf = false ∧ t.err = .none ∧ t.status = 0 ∧
      (∀ addr, Memory.read t.mem addr = none) ∧ t.msglenWritten = false ∧
      t.cfg = s.cfg ∧ t.script = rest ∧ t.replies = s.replies

/-- R150: the rotate, as the formula on truncated shifts, as XOR and as a sum of the two parts, and bit by bit. -/
def Obligations.RotateLeftIsCircular : Prop :=
  ∀ (x : Word) (n : Nat),
    (n % 32 = 0 → rotl x n = x) ∧
    (n % 32 ≠ 0 →
      (rotl x n).toNat = (x.toNat * 2 ^ (n % 32) % 2 ^ 32) ||| (x.toNat / 2 ^ (32 - n % 32)) ∧
      rotl x n = (x <<< (n % 32)) ^^^ (x >>> (32 - n % 32)) ∧
      rotl x n = (x <<< (n % 32)) + (x >>> (32 - n % 32))) ∧
    (∀ i, i < 32 → (rotl x n).getLsbD i = x.getLsbD ((i + 32 - n % 32) % 32))

/-- spec/42_expander.md section 1 (R151 (d), which the spec marks as derived): the laws of the rotate. -/
def Obligations.RotateLeftLaws : Prop :=
  (∀ n, Function.Bijective (fun x => rotl x n)) ∧
  (∀ (x : Word) (m n : Nat), rotl (rotl x m) n = rotl x (m + n)) ∧
  (∀ n, rotl 0 n = 0) ∧ (∀ n, rotl 0xFFFFFFFF n = 0xFFFFFFFF)

/-- R166, R167: the mixing function of every round as the table's formula and bit by bit, and the round constant as the
entry floor(t / 20) of the table. -/
def Obligations.StagesChooseMixAndConstant : Prop :=
  (∀ (t : Nat) (b c d : Word),
    (t < 20 → mix t b c d = (b &&& c) ||| (~~~b &&& d) ∧ mix t b c d = (b &&& c) ^^^ (~~~b &&& d) ∧
      mix t b c d = (b &&& c) + (~~~b &&& d) ∧
      ∀ i, i < 32 → (mix t b c d).getLsbD i = if b.getLsbD i then c.getLsbD i else d.getLsbD i) ∧
    ((20 ≤ t ∧ t < 40) ∨ (60 ≤ t ∧ t < 80) → mix t b c d = b ^^^ c ^^^ d ∧
      ∀ i, i < 32 → ((mix t b c d).getLsbD i = true ↔
        ((b.getLsbD i).toNat + (c.getLsbD i).toNat + (d.getLsbD i).toNat) % 2 = 1)) ∧
    (40 ≤ t → t < 60 → mix t b c d = (b &&& c) ||| (b &&& d) ||| (c &&& d) ∧
      ∀ i, i < 32 → ((mix t b c d).getLsbD i = true ↔
        2 ≤ (b.getLsbD i).toNat + (c.getLsbD i).toNat + (d.getLsbD i).toNat))) ∧
  (∀ t, t < 80 → [0x5A827999#32, 0x6ED9EBA1#32, 0x8F1BBCDC#32, 0xCA62C1D6#32][t / 20]? = some (roundConst t))

/-- spec/40_preprocessor.md section 1 (R121, R122 and R129, which the spec marks as derived from R120): the zero fill is the
least that reaches 56 modulo 64, and the padded length and Block count that follow. -/
def Obligations.ZeroFillIsLeastAndBlocksFit : Prop :=
  ∀ L : Nat,
    zeroFill L < 64 ∧ (L + 1 + zeroFill L) % 64 = 56 ∧ (∀ z, (L + 1 + z) % 64 = 56 → zeroFill L ≤ z) ∧
    (zeroFill L : Int) = (55 - (L : Int)) % 64 ∧
    64 * blockCount L = L + 1 + zeroFill L + 8 ∧ 1 ≤ blockCount L ∧
    (blockCount L = 1 ↔ L ≤ 55) ∧ (blockCount L = 2 ↔ 56 ≤ L ∧ L ≤ 119) ∧
    (L % 64 ≤ 55 → blockCount L = L / 64 + 1) ∧ (56 ≤ L % 64 → blockCount L = L / 64 + 2) ∧
    (L % 64 = 55 → 64 * blockCount L = L + 9) ∧ (L % 64 = 56 → 64 * blockCount L = L + 72)

/-- R90, R91: the four fields of the padded stream of a message, byte by byte. -/
def Obligations.PaddedStreamHasFourFields : Prop :=
  ∀ m : List Byte,
    let L := m.length
    let P := L + 1 + zeroFill L + 8
    (pad m).length = P ∧ zeroFill L ≤ 63 ∧
    (∀ j, j < L → (pad m)[j]? = m[j]?) ∧
    (pad m)[L]? = some 0x80 ∧
    (∀ j, L < j → j + 8 < P → (pad m)[j]? = some 0x00) ∧
    (∀ i, i < 8 → (pad m)[P - 8 + i]? = some (BitVec.ofNat 8 ((8 * L % 2 ^ 64) / 2 ^ (8 * (7 - i))))) ∧
    (bitLength L).toNat = 8 * L % 2 ^ 64 ∧ (bitLength L).toNat % 8 = 0

/-- spec/40_preprocessor.md section 1 (R125 (e), which the spec marks as derived): below 2^61 bytes the padded stream
determines the message. -/
def Obligations.PadIsInjectiveBelowTwoPow61 : Prop :=
  ∀ m n : List Byte, m.length < 2 ^ 61 → n.length < 2 ^ 61 → pad m = pad n → m = n

/-- R128: the Blocks of a padded stream, in ascending order, cover it exactly and without overlap. -/
def Obligations.BlocksCoverThePaddedStream : Prop :=
  ∀ m : List Byte,
    ((List.range (blockCount m.length)).flatMap fun k => (blockOf (pad m) k).toList) = pad m ∧
    ∀ (k : Nat) (i : Fin 64), k < blockCount m.length → (pad m)[64 * k + i.val]? = some (blockOf (pad m) k)[i.val]

/-- R201: INIT writes the five constants and goes to PAD; nothing else changes. -/
def Obligations.InitLoadsTheConstants : Prop :=
  ∀ s : State, exec .init s = .next { s with
    h := #v[0x67452301, 0xEFCDAB89, 0x98BADCFE, 0x10325476, 0xC3D2E1F0], phase := phasePad }

/-- R126: PAD computes NBLK, LEN64, LENOVF and KBLK from MSGLEN and goes to FETCH; nothing else changes, for every L. -/
def Obligations.PadComputesBookkeeping : Prop :=
  ∀ s : State, ∃ (n : Nat) (len : Len64) (ovf : Bool),
    exec .pad s = .next { s with nblk := n, len64 := len, lenovf := ovf, kblk := 0, phase := phaseFetch } ∧
    n = (s.msglen + 8) / 64 + 1 ∧ s.msglen + 9 ≤ 64 * n ∧ 64 * n ≤ s.msglen + 72 ∧
    len.toNat = 8 * s.msglen % 2 ^ 64 ∧ (ovf = true ↔ 2 ^ 61 ≤ s.msglen)

/-- R127, with R124's four cases and R236's fault entry: where the MSG bytes the Block needs are below MSG_CAP, FETCH writes
the 64 bytes of Block KBLK of the padded stream, with L = MSGLEN and P = 64 NBLK, and goes to DECODE; where one of them
holds ⊥ it enters FAULT with UNINIT, the first code since reset being kept, and BLK is not written. Nothing else changes. -/
def Obligations.FetchFillsTheBlockOrRaisesUninit : Prop :=
  ∀ s : State,
    (∀ i, i < 64 → 64 * s.kblk + i < s.msglen → 64 * s.kblk + i < s.cfg.msgCap) →
    ((∀ i, i < 64 → 64 * s.kblk + i < s.msglen → Memory.read s.mem (64 * s.kblk + i) ≠ none) →
      ∃ block : Vector Byte 64,
        exec .fetch s = .next { s with blk := block, phase := phaseDecode } ∧
        ∀ i : Fin 64,
          (64 * s.kblk + i.val < s.msglen → Memory.read s.mem (64 * s.kblk + i.val) = some block[i.val]) ∧
          (64 * s.kblk + i.val = s.msglen → block[i.val] = 0x80) ∧
          (s.msglen < 64 * s.kblk + i.val → 64 * s.kblk + i.val + 8 < 64 * s.nblk → block[i.val] = 0x00) ∧
          (s.msglen < 64 * s.kblk + i.val → 64 * s.nblk ≤ 64 * s.kblk + i.val + 8 →
            64 * s.kblk + i.val < 64 * s.nblk →
            block[i.val].toNat =
              s.len64.toNat / 2 ^ (8 * (7 - (64 * s.kblk + i.val + 8 - 64 * s.nblk))) % 256)) ∧
    ((∃ i, i < 64 ∧ 64 * s.kblk + i < s.msglen ∧ Memory.read s.mem (64 * s.kblk + i) = none) →
      exec .fetch s = .next { s with
        err := if s.err = .none then .uninit else s.err, phase := phaseFault })

/-- The model's own stop (log 10): where the Block needs a MSG byte at an address at or above MSG_CAP, which the spec says
no run does, FETCH stops by name. -/
def Obligations.FetchStopsBeyondMessageMemory : Prop :=
  ∀ s : State,
    (∃ i, i < 64 ∧ 64 * s.kblk + i < s.msglen ∧ s.cfg.msgCap ≤ 64 * s.kblk + i) →
    exec .fetch s = .fault .noSuchMsgAddress

/-- spec/40_preprocessor.md (R124, R127, R128): with the message m in place and the padder's registers as PAD leaves them,
FETCH takes Block KBLK of `pad m`, for every Block. -/
def Obligations.FetchTakesTheBlockOfThePaddedMessage : Prop :=
  ∀ (s : State) (m : List Byte), s.HoldsMessage m → s.nblk = blockCount m.length →
    s.len64 = bitLength m.length → s.kblk < s.nblk →
    exec .fetch s = .next { s with blk := blockOf (pad m) s.kblk, phase := phaseDecode }

/-- R141: DECODE writes the sixteen big-endian Words of BLK, leaves W[16..79], and goes to EXPAND. -/
def Obligations.DecodeWritesBigEndianWords : Prop :=
  ∀ s : State, ∃ w : Vector Word 80,
    exec .decode s = .next { s with w := w, phase := phaseExpand } ∧
    (∀ i : Fin 16, w[i.val].toNat = s.blk[4 * i.val].toNat * 2 ^ 24 + s.blk[4 * i.val + 1].toNat * 2 ^ 16 +
      s.blk[4 * i.val + 2].toNat * 2 ^ 8 + s.blk[4 * i.val + 3].toNat) ∧
    (∀ i : Fin 80, 16 ≤ i.val → w[i.val] = s.w[i.val])

/-- R140: `decode`, as shifts and OR and as a number, is a bijection between 64-byte Blocks and sixteen Words. -/
def Obligations.DecodeBlockIsBijective : Prop :=
  (∀ (blk : Vector Byte 64) (i : Fin 16),
    (decodeBlock blk)[i.val] = (blk[4 * i.val].setWidth 32 <<< 24) ||| (blk[4 * i.val + 1].setWidth 32 <<< 16) |||
      (blk[4 * i.val + 2].setWidth 32 <<< 8) ||| blk[4 * i.val + 3].setWidth 32 ∧
    (decodeBlock blk)[i.val].toNat = blk[4 * i.val].toNat * 2 ^ 24 + blk[4 * i.val + 1].toNat * 2 ^ 16 +
      blk[4 * i.val + 2].toNat * 2 ^ 8 + blk[4 * i.val + 3].toNat) ∧
  Function.Bijective decodeBlock

/-- R153: EXPAND keeps W[0..15], gives every W[16..79] the recurrence over the new W, and goes to LOADW. -/
def Obligations.ExpandFollowsTheRecurrence : Prop :=
  ∀ s : State, ∃ w : Vector Word 80,
    exec .expand s = .next { s with w := w, phase := phaseLoadw } ∧
    (∀ i : Fin 16, w[i.val] = s.w[i.val]) ∧
    (∀ i : Fin 64, w[i.val + 16] = rotl (w[i.val + 13] ^^^ w[i.val + 8] ^^^ w[i.val + 2] ^^^ w[i.val]) 1)

/-- R155: DECODE and EXPAND give a Schedule that is a function of BLK alone, whatever the rest of the state held. -/
def Obligations.ScheduleDependsOnBlockAlone : Prop :=
  ∀ s s' : State, s.blk = s'.blk →
    ∃ t t' u u', exec .decode s = .next t ∧ exec .expand t = .next u ∧
      exec .decode s' = .next t' ∧ exec .expand t' = .next u' ∧
      u.w = expand (decodeBlock s.blk) ∧ u'.w = u.w

/-- R152: `expand` copies its sixteen Words, follows the recurrence, and is linear over XOR. -/
def Obligations.ExpandIsLinearOverXor : Prop :=
  (∀ first : Vector Word 16,
    (∀ i : Fin 16, (expand first)[i.val] = first[i.val]) ∧
    (∀ i : Fin 64, (expand first)[i.val + 16] = rotl ((expand first)[i.val + 13] ^^^ (expand first)[i.val + 8] ^^^
      (expand first)[i.val + 2] ^^^ (expand first)[i.val]) 1)) ∧
  (∀ (u v : Vector Word 16) (i : Fin 80),
    (expand (Vector.ofFn fun k : Fin 16 => u[k.val] ^^^ v[k.val]))[i.val] = (expand u)[i.val] ^^^ (expand v)[i.val]) ∧
  (∀ i : Fin 80, (expand (Vector.replicate 16 0))[i.val] = 0)

/-- R168: LOADW copies H into A to E, sets T to 0 and goes to ROUND; H and everything else are unchanged. -/
def Obligations.LoadwCopiesTheAccumulators : Prop :=
  ∀ s : State, exec .loadw s = .next { s with
    a := s.h[0], b := s.h[1], c := s.h[2], d := s.h[3], e := s.h[4], t := 0, phase := phaseRound }

/-- R169, R170: ROUND takes all five new values from the old ones, the sum being modulo 2^32, and advances T or goes to FOLD;
H, W and everything else are unchanged. -/
def Obligations.RoundUpdatesFromOldValues : Prop :=
  ∀ s : State, ∃ temp : Word,
    temp.toNat = ((rotl s.a 5).toNat + (mix s.t.val s.b s.c s.d).toNat + s.e.toNat + (roundConst s.t.val).toNat +
      s.w[s.t.val].toNat) % 2 ^ 32 ∧
    (s.t.val = 79 → exec .round s = .next { s with
      a := temp, b := s.a, c := rotl s.b 30, d := s.c, e := s.d, phase := phaseFold }) ∧
    (∀ next : Fin 80, next.val = s.t.val + 1 → exec .round s = .next { s with
      a := temp, b := s.a, c := rotl s.b 30, d := s.c, e := s.d, t := next, phase := phaseRound })

/-- R171: FOLD adds A to E into H modulo 2^32 and goes to FORMAT after the last Block, else to FETCH with KBLK advanced; A to
E, W and everything else are unchanged. -/
def Obligations.FoldAddsTheWorkingRegisters : Prop :=
  ∀ s : State, ∃ h : Vector Word 5,
    h[0].toNat = (s.h[0].toNat + s.a.toNat) % 2 ^ 32 ∧ h[1].toNat = (s.h[1].toNat + s.b.toNat) % 2 ^ 32 ∧
    h[2].toNat = (s.h[2].toNat + s.c.toNat) % 2 ^ 32 ∧ h[3].toNat = (s.h[3].toNat + s.d.toNat) % 2 ^ 32 ∧
    h[4].toNat = (s.h[4].toNat + s.e.toNat) % 2 ^ 32 ∧
    (s.kblk + 1 = s.nblk → exec .fold s = .next { s with h := h, phase := phaseFormat }) ∧
    (s.kblk + 1 ≠ s.nblk → exec .fold s = .next { s with h := h, kblk := s.kblk + 1, phase := phaseFetch })

/-- spec/44_formatter.md (R190 to R192) with the character codes the spec takes from general knowledge (R97, log 19): FORMAT
writes the forty upper-case hex digits of H and goes to DONE; H and everything else are unchanged. -/
def Obligations.FormatWritesUpperCaseHex : Prop :=
  ∀ s : State, ∃ hex : Vector Byte 40,
    exec .format s = .next { s with hex := hex, phase := phaseDone } ∧
    ∀ (i : Fin 5) (j : Fin 8),
      [0x30#8, 0x31#8, 0x32#8, 0x33#8, 0x34#8, 0x35#8, 0x36#8, 0x37#8, 0x38#8, 0x39#8, 0x41#8, 0x42#8, 0x43#8, 0x44#8,
        0x45#8, 0x46#8][s.h[i.val].toNat / 2 ^ (28 - 4 * j.val) % 16]? = some hex[8 * i.val + j.val]

/-- spec/44_formatter.md (R190, a property the spec marks as derived): the accumulators can be read back from the string. -/
def Obligations.FormatIsInjective : Prop := Function.Injective formatDigest

/-- spec/30_encoding.md section 1 (R94, and R95, which the spec marks as derived): the 160-bit form holds H[0] in its top 32
bits, the 20-byte form is its bytes from the top, and characters 2n and 2n + 1 of the string are the two digits of byte n. -/
def Obligations.DigestViewsAgree : Prop :=
  ∀ h : Vector Word 5,
    (∀ i : Fin 5, (digestBits h).extractLsb' (128 - 32 * i.val) 32 = h[i.val]) ∧
    (∀ n : Fin 20, digestByte h n = (digestBits h).extractLsb' (152 - 8 * n.val) 8) ∧
    (∀ n : Fin 20, (formatDigest h)[2 * n.val] = hexChar ((digestByte h n).toNat / 16) ∧
      (formatDigest h)[2 * n.val + 1] = hexChar ((digestByte h n).toNat % 16))

/-- spec/45_orchestration.md R202, R204, R206, spec/60_exceptions.md R241, spec/30_encoding.md R101: in IDLE, DONE and FAULT
there is no core step, and a CMD write with bit 0 = 0 is no operation in any phase; the model's step leaves the state as it
is (log 8). -/
def Obligations.WaitingOperationsChangeNothing : Prop :=
  ∀ (s : State) (ignored : BitVec 7),
    exec .idle s = .next s ∧ exec .done s = .next s ∧ exec .fault s = .next s ∧ exec (.cmdnop ignored) s = .next s

/-- R237 (log 9): a reserved PHASE is FAULT: STATUS shows FAULT alone, ERR reads RESERVED_PHASE where it was 0, the core's step
enters FAULT with that code, and what the host can read of STATUS and ERR is the same before and after. -/
def Obligations.ReservedPhaseIsFault : Prop :=
  ∀ s : State,
    (∀ i ∈ [Instr.reserved11, .reserved12, .reserved13, .reserved14], exec i s = .next { s with
      err := if s.err = .none then .reservedPhase else s.err, phase := phaseFault }) ∧
    (11 ≤ s.phase.toNat → s.phase.toNat ≤ 14 →
      s.busy = false ∧ s.isDone = false ∧ s.faulted = true ∧ (s.err = .none → s.errRead = 5) ∧
      (s.script = [] → ∃ t, step s = .next t ∧ t.phase = phaseFault ∧ t.status = s.status ∧ t.errRead = s.errRead))

/-- spec/45_orchestration.md section 2 (R205): START, the cases in the order the rule tests them; the ignored bits of the
value written have no effect (R101). R205 names PHASE = FAULT only: that START is ignored in the reserved codes 11 to 14
too is the model's reading of R237 (log 9, DEDUCED). -/
def Obligations.StartFollowsItsCases : Prop :=
  ∀ (s : State) (ignored : BitVec 7),
    (11 ≤ s.phase.toNat → exec (.start ignored) s = .next s) ∧
    (1 ≤ s.phase.toNat → s.phase.toNat ≤ 9 → exec (.start ignored) s = .next { s with
      err := if s.err = .none then .reentry else s.err, phase := phaseFault }) ∧
    (s.phase = phaseIdle ∨ s.phase = phaseDone →
      (s.msglenWritten = false → exec (.start ignored) s = .next { s with
        err := if s.err = .none then .uninit else s.err, phase := phaseFault }) ∧
      (s.msglenWritten = true → s.cfg.msgCap < s.msglen → exec (.start ignored) s = .next { s with
        err := if s.err = .none then .alloc else s.err, phase := phaseFault }) ∧
      (s.msglenWritten = true → s.msglen ≤ s.cfg.msgCap → exec (.start ignored) s = .next { s with
        lenovf := false, phase := phaseInit }))

/-- spec/20_memory.md section 2 (R63): `HostWriteMsg`, the cases in order. The accepted write changes the one byte of MSG and
nothing else. R63 names PHASE = FAULT only: that the write is ignored in the reserved codes 11 to 14 too is the model's
reading of R237 (log 9, DEDUCED). -/
def Obligations.HostWriteMsgFollowsItsCases : Prop :=
  ∀ (s : State) (addr : Nat) (v : Byte) (rest : List HostMove), s.script = .writeMsg addr v :: rest →
    (11 ≤ s.phase.toNat → step s = .next { s with script := rest }) ∧
    (1 ≤ s.phase.toNat → s.phase.toNat ≤ 9 → step s = .next { s with
      script := rest, err := if s.err = .none then .inputMutated else s.err, phase := phaseFault }) ∧
    (s.phase = phaseIdle ∨ s.phase = phaseDone →
      (s.cfg.msgCap ≤ addr → step s = .next { s with
        script := rest, err := if s.err = .none then .alloc else s.err, phase := phaseFault }) ∧
      (addr < s.cfg.msgCap → ∃ mem, step s = .next { s with script := rest, mem := mem } ∧
        Memory.read mem addr = some v ∧ ∀ other, other ≠ addr → Memory.read mem other = Memory.read s.mem other))

/-- spec/20_memory.md section 2 (R64): `HostWriteLen`, the cases in order, for every value of MSGLEN's width; no check against
MSG_CAP is made. R64 names PHASE = FAULT only: that the write is ignored in the reserved codes 11 to 14 too is the model's
reading of R237 (log 9, DEDUCED). -/
def Obligations.HostWriteLenFollowsItsCases : Prop :=
  ∀ (s : State) (v : Nat) (rest : List HostMove), s.script = .writeReg 2 v :: rest → v < 2 ^ s.cfg.lenBits →
    (11 ≤ s.phase.toNat → step s = .next { s with script := rest }) ∧
    (1 ≤ s.phase.toNat → s.phase.toNat ≤ 9 → step s = .next { s with
      script := rest, err := if s.err = .none then .inputMutated else s.err, phase := phaseFault }) ∧
    (s.phase = phaseIdle ∨ s.phase = phaseDone → step s = .next { s with
      script := rest, msglen := v, msglenWritten := true })

/-- R212, R33: every host read is served in every phase and changes no state of the core; STATUS, ERR and a written MSGLEN
give their value, H and HEX theirs when PHASE = DONE. Where the value is unspecified, nothing is said of it but its width
(log 5). -/
def Obligations.HostReadsAnswerAndChangeNothing : Prop :=
  ∀ (s : State) (rest : List HostMove),
    (s.script = .readReg 0 :: rest → step s = .next { s with
      script := rest, replies := s.replies ++ [.byte .status s.status] }) ∧
    (s.script = .readReg 1 :: rest → step s = .next { s with
      script := rest, replies := s.replies ++ [.byte .err s.errRead] }) ∧
    (s.script = .readReg 2 :: rest → ∃ v n, step s = .next { s with
      script := rest, replies := s.replies ++ [.length v], draws := n } ∧
      (s.msglenWritten = true → v = s.msglen) ∧ (s.msglenWritten = false → v < 2 ^ s.cfg.lenBits)) ∧
    (∀ i : Fin 5, s.script = .readReg (4 + i.val) :: rest → ∃ v n, step s = .next { s with
      script := rest, replies := s.replies ++ [.word (.h i) v], draws := n } ∧
      (s.phase = phaseDone → v = s.h[i.val])) ∧
    (∀ i : Fin 40, s.script = .readReg (16 + i.val) :: rest → ∃ v n, step s = .next { s with
      script := rest, replies := s.replies ++ [.byte (.hex i) v], draws := n } ∧
      (s.phase = phaseDone → v = s.hex[i.val]))

/-- spec/10_state.md section 7 (R33; the names of the refusals are the model's, log 14): the accesses that are not moves of
the model are refused by name: a number that names no register, a write to a read-only register, a read of CMD, a read of
MSG, and a value wider than the register. -/
def Obligations.IllegalHostAccessesAreRefused : Prop :=
  ∀ (s : State) (n v : Nat) (rest : List HostMove),
    ((9 ≤ n ∧ n ≤ 15) ∨ 56 ≤ n →
      (s.script = .readReg n :: rest → step s = .refused (.noSuchRegister n)) ∧
      (s.script = .writeReg n v :: rest → step s = .refused (.noSuchRegister n))) ∧
    (n ≤ 1 ∨ (4 ≤ n ∧ n ≤ 8) ∨ (16 ≤ n ∧ n ≤ 55) →
      s.script = .writeReg n v :: rest → step s = .refused (.registerReadOnly n)) ∧
    (s.script = .readReg 3 :: rest → step s = .refused (.registerWriteOnly 3)) ∧
    (s.script = .readMsg n :: rest → step s = .refused .msgNotReadable) ∧
    (s.script = .writeReg 2 v :: rest → 2 ^ s.cfg.lenBits ≤ v → step s = .refused (.valueTooWide 2)) ∧
    (s.script = .writeReg 3 v :: rest → 256 ≤ v → step s = .refused (.valueTooWide 3))

/-- R31, R33: the bits of STATUS for every PHASE, reserved codes included; at most one of BUSY, DONE and FAULT is 1. -/
def Obligations.StatusBitsDecodePhase : Prop :=
  ∀ s : State,
    (s.status.getLsbD 0 = true ↔ 1 ≤ s.phase.toNat ∧ s.phase.toNat ≤ 9) ∧
    (s.status.getLsbD 1 = true ↔ s.phase.toNat = 10) ∧
    (s.status.getLsbD 2 = true ↔ 11 ≤ s.phase.toNat) ∧
    s.status.getLsbD 3 = s.lenovf ∧ s.status.extractLsb' 4 4 = 0 ∧
    (s.status.getLsbD 0).toNat + (s.status.getLsbD 1).toNat + (s.status.getLsbD 2).toNat ≤ 1

/-- R241: in FAULT no step, of the core or of the host, changes any state of the core, unless it is reset. -/
def Obligations.FaultIsTerminal : Prop :=
  ∀ s t : State, s.phase = phaseFault → s.script.head? ≠ some .reset → step s = .next t →
    t = { s with script := t.script, replies := t.replies, draws := t.draws }

/-- spec/20_memory.md section 5 (R70, which the spec marks as derived): while BUSY = 1 no step but reset changes MSG or
MSGLEN. -/
def Obligations.InputsFrozenWhileBusy : Prop :=
  ∀ s t : State, s.busy = true → s.script.head? ≠ some .reset → step s = .next t →
    t.mem = s.mem ∧ t.msglen = s.msglen ∧ t.msglenWritten = s.msglenWritten

/-- R71: in DONE no step but reset changes H or HEX, and a step that leaves DONE is an accepted START, a fault or reset. -/
def Obligations.OutputsFrozenWhileDone : Prop :=
  ∀ s t : State, s.phase = phaseDone → s.script.head? ≠ some .reset → step s = .next t →
    t.h = s.h ∧ t.hex = s.hex ∧ (t.phase = phaseDone ∨ t.phase = phaseInit ∨ t.phase = phaseFault)

/-- spec/10_state.md section 1 (the "written by" column of R20): over all operations of the opcode table, each piece of state
changes only by the operations the table names for it. -/
def Obligations.RegistersChangeOnlyByTheirWriters : Prop :=
  ∀ (i : Instr) (s t : State), exec i s = .next t →
    t.mem = s.mem ∧ t.msglen = s.msglen ∧ t.msglenWritten = s.msglenWritten ∧
    (i ≠ .init → i ≠ .fold → t.h = s.h) ∧
    (i ≠ .loadw → i ≠ .round → t.a = s.a ∧ t.b = s.b ∧ t.c = s.c ∧ t.d = s.d ∧ t.e = s.e ∧ t.t = s.t) ∧
    (i ≠ .decode → i ≠ .expand → t.w = s.w) ∧ (i ≠ .fetch → t.blk = s.blk) ∧ (i ≠ .format → t.hex = s.hex) ∧
    (i ≠ .pad → t.nblk = s.nblk ∧ t.len64 = s.len64) ∧ (i ≠ .pad → i ≠ .fold → t.kblk = s.kblk) ∧
    (i ≠ .pad → (∀ ignored, i ≠ .start ignored) → t.lenovf = s.lenovf) ∧
    (t.err ≠ s.err → t.phase = phaseFault) ∧
    t.cfg = s.cfg ∧ t.script = s.script ∧ t.replies = s.replies ∧ t.draws = s.draws

/-- spec/45_orchestration.md section 3 (R211's last clause, which the spec marks as derived): the moves still to come, the
replies given and the free values drawn reach no operation: it does the same to the core's own state whatever they are. -/
def Obligations.HostTrafficDoesNotReachTheCore : Prop :=
  ∀ (i : Instr) (s t : State) (script : List HostMove) (replies : List HostReply) (draws : Nat), exec i s = .next t →
    exec i { s with script := script, replies := replies, draws := draws } =
      .next { t with script := script, replies := replies, draws := draws }

/-- spec/45_orchestration.md section 2 (the core's rows of the table of R203): the next PHASE, KBLK and T of a core step. -/
def Obligations.PhasesFollowTheTable : Prop :=
  ∀ s t : State, s.script = [] → step s = .next t →
    (s.phase = phaseIdle → t.phase = phaseIdle) ∧
    (s.phase = phaseInit → t.phase = phasePad ∧ t.kblk = s.kblk ∧ t.t = s.t) ∧
    (s.phase = phasePad → t.phase = phaseFetch ∧ t.kblk = 0 ∧ t.t = s.t) ∧
    (s.phase = phaseFetch → (t.phase = phaseDecode ∨ t.phase = phaseFault) ∧ t.kblk = s.kblk ∧ t.t = s.t) ∧
    (s.phase = phaseDecode → t.phase = phaseExpand ∧ t.kblk = s.kblk ∧ t.t = s.t) ∧
    (s.phase = phaseExpand → t.phase = phaseLoadw ∧ t.kblk = s.kblk ∧ t.t = s.t) ∧
    (s.phase = phaseLoadw → t.phase = phaseRound ∧ t.kblk = s.kblk ∧ t.t = 0) ∧
    (s.phase = phaseRound → s.t.val < 79 → t.phase = phaseRound ∧ t.kblk = s.kblk ∧ t.t.val = s.t.val + 1) ∧
    (s.phase = phaseRound → s.t.val = 79 → t.phase = phaseFold ∧ t.kblk = s.kblk ∧ t.t = s.t) ∧
    (s.phase = phaseFold → s.kblk + 1 < s.nblk → t.phase = phaseFetch ∧ t.kblk = s.kblk + 1 ∧ t.t = s.t) ∧
    (s.phase = phaseFold → s.kblk + 1 = s.nblk → t.phase = phaseFormat ∧ t.kblk = s.kblk ∧ t.t = s.t) ∧
    (s.phase = phaseFormat → t.phase = phaseDone ∧ t.kblk = s.kblk ∧ t.t = s.t) ∧
    (s.phase = phaseDone → t.phase = phaseDone) ∧ (s.phase = phaseFault → t.phase = phaseFault)

/-- R246: a core step in any BUSY phase but FETCH answers a next state that is not FAULT and leaves ERR alone, under any
data. -/
def Obligations.OnlyFetchCanFault : Prop :=
  ∀ s : State, s.busy = true → s.phase ≠ phaseFetch → s.script = [] →
    ∃ t, step s = .next t ∧ t.faulted = false ∧ t.err = s.err

/-- R264, R265: a host that neither starts nor writes the input while BUSY = 1 never causes REENTRY or INPUT_MUTATED. -/
def Obligations.CarefulHostAvoidsBusyFaults : Prop :=
  ∀ (s t : State) (move : HostMove), s.script.head? = some move → move.respectsBusy s = true → step s = .next t →
    (t.err = .reentry → s.err = .reentry) ∧ (t.err = .inputMutated → s.err = .inputMutated)

/-- The model's invariant holds at reset. It rests on the reset values the model names for MSGLEN, NBLK and KBLK (log 2) and
on its MSG_CAP and LEN_BITS (log 1). -/
def Obligations.InvariantHoldsAtReset : Prop := State.reset.Inv

/-- Every step of the core and of the host keeps the invariant, from every state that has it. A reset move gives the values
the model names (log 2). -/
def Obligations.EveryStepKeepsTheInvariant : Prop :=
  ∀ s t : State, s.Inv → step s = .next t → t.Inv

/-- spec/43_compression.md (R165 against R168, R169, R171): from LOADW, eighty-two core steps give H the value of the
functional `compress` and change nothing but H, A to E, T, KBLK and PHASE. -/
def Obligations.EightyTwoStepsCompress : Prop :=
  ∀ s : State, s.phase = phaseLoadw → s.script = [] →
    ∃ t, Sys2Proof.core.run 82 s = .next t ∧ t.h = compress s.h s.w ∧
      t = { s with h := t.h, a := t.a, b := t.b, c := t.c, d := t.d, e := t.e, t := t.t, kblk := t.kblk,
                   phase := t.phase } ∧
      (s.kblk + 1 = s.nblk → t.phase = phaseFormat ∧ t.kblk = s.kblk) ∧
      (s.kblk + 1 ≠ s.nblk → t.phase = phaseFetch ∧ t.kblk = s.kblk + 1)

/-- spec/43_compression.md (R172, block independence): with the message m in place, the 85 steps of the pass over Block KBLK
give H the compression of the H that entered with that Block's Schedule, whatever W, BLK and A to E held. -/
def Obligations.BlockPassCompressesTheBlock : Prop :=
  ∀ (s : State) (m : List Byte), s.HoldsMessage m → s.nblk = blockCount m.length → s.len64 = bitLength m.length →
    s.kblk < s.nblk → s.phase = phaseFetch → s.script = [] →
    ∃ t, Sys2Proof.core.run 85 s = .next t ∧
      t.h = compress s.h (expand (decodeBlock (blockOf (pad m) s.kblk))) ∧
      t.mem = s.mem ∧ t.msglen = s.msglen ∧ t.nblk = s.nblk ∧ t.len64 = s.len64 ∧ t.err = s.err ∧
      (s.kblk + 1 = s.nblk → t.phase = phaseFormat ∧ t.kblk = s.kblk) ∧
      (s.kblk + 1 ≠ s.nblk → t.phase = phaseFetch ∧ t.kblk = s.kblk + 1)

/-- spec/45_orchestration.md section 3 (R209, which the spec marks as derived): from IDLE or DONE with the message m in place,
START and then 3 + 85 N core steps reach DONE with HEX = digest m (in the character codes of log 19), H the final
accumulators, the padder's registers as R209 says, MSG and MSGLEN unchanged and no fault taken; and after the FOLD of
Block k, H is R200's h after iteration k. -/
def Obligations.RunComputesTheDigest : Prop :=
  ∀ (s : State) (m : List Byte) (v : Nat), s.phase = phaseIdle ∨ s.phase = phaseDone → s.HoldsMessage m →
    v < 256 → v % 2 = 1 → s.script = [.writeReg 3 v] →
    (∃ t, Sys2Proof.core.run (1 + (3 + 85 * blockCount m.length)) s = .next t ∧ t.phase = phaseDone ∧
      t.hex = digest m ∧ t.h = digestState m ∧ t.nblk = blockCount m.length ∧
      t.len64.toNat = 8 * m.length % 2 ^ 64 ∧ (t.lenovf = true ↔ 2 ^ 61 ≤ m.length) ∧
      t.mem = s.mem ∧ t.msglen = s.msglen ∧ t.err = s.err) ∧
    (∀ k, k < blockCount m.length → ∃ t, Sys2Proof.core.run (1 + (2 + 85 * (k + 1))) s = .next t ∧
      t.h = foldBlocks (pad m) (k + 1))

/-- spec/45_orchestration.md section 3 (R210, which the spec marks as derived): every computation in flight, with the host
making no move, reaches the end of its run within 3 + 85 N core steps. -/
def Obligations.RunEndsWithinBound : Prop :=
  ∀ s : State, s.Inv → s.busy = true → s.script = [] →
    ∃ n t, n ≤ 3 + 85 * blockCount s.msglen ∧ Sys2Proof.core.run n s = .next t ∧ t.runOver = true

/-- spec/45_orchestration.md section 3 (R218, which the spec marks as derived): two cores in the same position with messages of
the same length in place run through the same positions, whatever their data. -/
def Obligations.ControlDependsOnLengthOnly : Prop :=
  ∀ (n : Nat) (s s' : State) (m m' : List Byte), s.HoldsMessage m → s'.HoldsMessage m' → m.length = m'.length →
    s.script = [] → s'.script = [] → s.phase = s'.phase → s.kblk = s'.kblk → s.nblk = s'.nblk → s.t = s'.t →
    ∃ t t', Sys2Proof.core.run n s = .next t ∧ Sys2Proof.core.run n s' = .next t' ∧
      t.phase = t'.phase ∧ t.kblk = t'.kblk ∧ t.nblk = t'.nblk ∧ t.t = t'.t

/-- spec/45_orchestration.md section 3 (R211, which the spec marks as derived): a run reaches DONE with a result that is a
function of the message: it does not depend on what any register, or MSG beyond the message, held before START. -/
def Obligations.DigestIndependentOfHistory : Prop :=
  ∀ (s s' : State) (m : List Byte),
    s.idleOrDone = true → s'.idleOrDone = true → s.HoldsMessage m → s'.HoldsMessage m →
    s.script = [scriptStart] → s'.script = [scriptStart] →
    ∃ t t', Sys2Proof.core.run (4 + 85 * blockCount m.length) s = .next t ∧
      Sys2Proof.core.run (4 + 85 * blockCount m.length) s' = .next t' ∧
      t.phase = phaseDone ∧ t'.phase = phaseDone ∧ t.h = t'.h ∧ t.hex = t'.hex ∧ t.lenovf = t'.lenovf
end

