-- ==== Sys2Proof/Laws/Operands.lean ====
section
/-! SUPPORT. What the operands' functions give: elements of the vectors the units build, and when a Block can be fetched. -/

namespace Sys2Proof.Machine

@[simp] theorem decodeBlock_getElem (blk : Vector Byte 64) (i : Nat) (hi : i < 16) :
    (decodeBlock blk)[i] = wordOfBytes blk[4 * i] blk[4 * i + 1] blk[4 * i + 2] blk[4 * i + 3] := by
  simp [decodeBlock]

theorem loadFirst16_getElem_low (first : Vector Word 16) (w : Vector Word 80) {i : Nat} (hi : i < 16) :
    (loadFirst16 first w)[i] = first[i] := by
  simp [loadFirst16, hi]

theorem loadFirst16_getElem_high (first : Vector Word 16) (w : Vector Word 80) {i : Nat} (hi : i < 80)
    (hlow : 16 ≤ i) : (loadFirst16 first w)[i] = w[i] := by
  have hnot : ¬ i < 16 := by omega
  simp [loadFirst16, hnot]

@[simp] theorem formatDigest_getElem (h : Vector Word 5) (n : Nat) (hn : n < 40) :
    (formatDigest h)[n] = hexChar (nibble h[n / 8] (n % 8)) := by
  simp [formatDigest]

@[simp] theorem blockOf_getElem (stream : List Byte) (k i : Nat) (hi : i < 64) :
    (blockOf stream k)[i] = stream.getD (64 * k + i) 0 := by
  simp [blockOf]

/-- R122, R129: the padded length is 64 times the Block count. -/
theorem pad_length (m : List Byte) : (pad m).length = 64 * blockCount m.length := by
  simp only [pad, List.length_append, List.length_cons, List.length_nil, List.length_replicate, List.length_map,
    List.length_range, zeroFill, blockCount]
  omega

/-- The iteration of EXPAND at i changes element i only. -/
theorem expandAt_getElem_other (w : Vector Word 80) {i k : Nat} (hk : k < 80) (hne : i ≠ k) :
    (expandAt w i)[k] = w[k] := by
  unfold expandAt
  split
  · exact Vector.getElem_set_ne _ _ hne
  · rfl

/-- The iteration of EXPAND at i gives element i the recurrence. -/
theorem expandAt_getElem_same (w : Vector Word 80) {i : Nat} (hlow : 16 ≤ i) (hi : i < 80) :
    (expandAt w i)[i] = rotl (w[i - 3] ^^^ w[i - 8] ^^^ w[i - 14] ^^^ w[i - 16]) 1 := by
  unfold expandAt
  rw [dif_pos ⟨hlow, hi⟩]
  exact Vector.getElem_set_self _

/-- Iterations above k leave element k. -/
theorem foldl_expandAt_getElem_below (n start : Nat) (w : Vector Word 80) {k : Nat} (hk : k < 80)
    (hbelow : k < start) : ((List.range' start n).foldl expandAt w)[k] = w[k] := by
  induction n generalizing start w with
  | zero => simp
  | succ n ih =>
    rw [List.range'_succ, List.foldl_cons, ih (start + 1) (expandAt w start) (by omega)]
    exact expandAt_getElem_other w hk (by omega)

/-- A Block is fetched exactly where every stream byte of it is there, and it then holds those bytes. -/
theorem streamBlock_eq_some {s : State} {block : Vector Byte 64} (hblock : streamBlock s = some block) :
    ∀ i (hi : i < 64), streamByte s (blockIndex s i) = some block[i] := by
  intro i hi
  unfold streamBlock at hblock
  split at hblock
  · rename_i hall
    simp only [List.all_eq_true, List.mem_range] at hall
    obtain ⟨v, hv⟩ := Option.isSome_iff_exists.mp (hall i hi)
    have hb := Option.some.inj hblock
    simp [← hb, hv]
  · cases hblock

theorem streamBlock_isSome {s : State}
    (hall : ∀ i, i < 64 → (streamByte s (blockIndex s i)).isSome = true) : ∃ block, streamBlock s = some block := by
  unfold streamBlock
  rw [if_pos (by simpa [List.all_eq_true] using hall)]
  exact ⟨_, rfl⟩

theorem streamBlock_eq_none {s : State} {i : Nat} (hi : i < 64) (hnone : streamByte s (blockIndex s i) = none) :
    streamBlock s = none := by
  unfold streamBlock
  rw [if_neg]
  intro hall
  simp only [List.all_eq_true, List.mem_range] at hall
  have := hall i hi
  simp [hnone] at this

theorem blockBeyondMsg_eq_true {s : State} :
    blockBeyondMsg s = true ↔ ∃ i, i < 64 ∧ blockIndex s i < s.msglen ∧ s.cfg.msgCap ≤ blockIndex s i := by
  simp [blockBeyondMsg, List.any_eq_true]

/-- Only a message byte can be missing from the padded stream (R124). -/
theorem streamByte_eq_none {s : State} {j : Nat} (hnone : streamByte s j = none) :
    j < s.msglen ∧ Memory.read s.mem j = none := by
  unfold streamByte at hnone
  split at hnone
  · exact ⟨‹_›, hnone⟩
  · split at hnone <;> [cases hnone; (split at hnone <;> [cases hnone; (split at hnone <;> cases hnone)])]

end Sys2Proof.Machine
end

