-- ==== Sys2Proof/Laws/State.lean ====
section
/-! SUPPORT. One lemma per field per named update of a state, so that no proof unfolds a record update. -/

namespace Sys2Proof.Machine

section Goto
variable (s : State) (p : BitVec 4)

@[simp] theorem State.goto_mem : (s.goto p).mem = s.mem := rfl
@[simp] theorem State.goto_msglen : (s.goto p).msglen = s.msglen := rfl
@[simp] theorem State.goto_msglenWritten : (s.goto p).msglenWritten = s.msglenWritten := rfl
@[simp] theorem State.goto_h : (s.goto p).h = s.h := rfl
@[simp] theorem State.goto_a : (s.goto p).a = s.a := rfl
@[simp] theorem State.goto_b : (s.goto p).b = s.b := rfl
@[simp] theorem State.goto_c : (s.goto p).c = s.c := rfl
@[simp] theorem State.goto_d : (s.goto p).d = s.d := rfl
@[simp] theorem State.goto_e : (s.goto p).e = s.e := rfl
@[simp] theorem State.goto_w : (s.goto p).w = s.w := rfl
@[simp] theorem State.goto_blk : (s.goto p).blk = s.blk := rfl
@[simp] theorem State.goto_hex : (s.goto p).hex = s.hex := rfl
@[simp] theorem State.goto_nblk : (s.goto p).nblk = s.nblk := rfl
@[simp] theorem State.goto_len64 : (s.goto p).len64 = s.len64 := rfl
@[simp] theorem State.goto_kblk : (s.goto p).kblk = s.kblk := rfl
@[simp] theorem State.goto_t : (s.goto p).t = s.t := rfl
@[simp] theorem State.goto_phase : (s.goto p).phase = p := rfl
@[simp] theorem State.goto_lenovf : (s.goto p).lenovf = s.lenovf := rfl
@[simp] theorem State.goto_err : (s.goto p).err = s.err := rfl
@[simp] theorem State.goto_cfg : (s.goto p).cfg = s.cfg := rfl
@[simp] theorem State.goto_script : (s.goto p).script = s.script := rfl
@[simp] theorem State.goto_replies : (s.goto p).replies = s.replies := rfl
@[simp] theorem State.goto_draws : (s.goto p).draws = s.draws := rfl

end Goto

section Raise
variable (s : State) (code : ErrCode)

@[simp] theorem State.raise_mem : (s.raise code).mem = s.mem := rfl
@[simp] theorem State.raise_msglen : (s.raise code).msglen = s.msglen := rfl
@[simp] theorem State.raise_msglenWritten : (s.raise code).msglenWritten = s.msglenWritten := rfl
@[simp] theorem State.raise_h : (s.raise code).h = s.h := rfl
@[simp] theorem State.raise_a : (s.raise code).a = s.a := rfl
@[simp] theorem State.raise_b : (s.raise code).b = s.b := rfl
@[simp] theorem State.raise_c : (s.raise code).c = s.c := rfl
@[simp] theorem State.raise_d : (s.raise code).d = s.d := rfl
@[simp] theorem State.raise_e : (s.raise code).e = s.e := rfl
@[simp] theorem State.raise_w : (s.raise code).w = s.w := rfl
@[simp] theorem State.raise_blk : (s.raise code).blk = s.blk := rfl
@[simp] theorem State.raise_hex : (s.raise code).hex = s.hex := rfl
@[simp] theorem State.raise_nblk : (s.raise code).nblk = s.nblk := rfl
@[simp] theorem State.raise_len64 : (s.raise code).len64 = s.len64 := rfl
@[simp] theorem State.raise_kblk : (s.raise code).kblk = s.kblk := rfl
@[simp] theorem State.raise_t : (s.raise code).t = s.t := rfl
@[simp] theorem State.raise_phase : (s.raise code).phase = phaseFault := rfl
@[simp] theorem State.raise_lenovf : (s.raise code).lenovf = s.lenovf := rfl
@[simp] theorem State.raise_err : (s.raise code).err = (if s.err = .none then code else s.err) := rfl
@[simp] theorem State.raise_cfg : (s.raise code).cfg = s.cfg := rfl
@[simp] theorem State.raise_script : (s.raise code).script = s.script := rfl
@[simp] theorem State.raise_replies : (s.raise code).replies = s.replies := rfl
@[simp] theorem State.raise_draws : (s.raise code).draws = s.draws := rfl

end Raise

section Popmove
variable (s : State) 

@[simp] theorem State.popMove_mem : (s.popMove).mem = s.mem := rfl
@[simp] theorem State.popMove_msglen : (s.popMove).msglen = s.msglen := rfl
@[simp] theorem State.popMove_msglenWritten : (s.popMove).msglenWritten = s.msglenWritten := rfl
@[simp] theorem State.popMove_h : (s.popMove).h = s.h := rfl
@[simp] theorem State.popMove_a : (s.popMove).a = s.a := rfl
@[simp] theorem State.popMove_b : (s.popMove).b = s.b := rfl
@[simp] theorem State.popMove_c : (s.popMove).c = s.c := rfl
@[simp] theorem State.popMove_d : (s.popMove).d = s.d := rfl
@[simp] theorem State.popMove_e : (s.popMove).e = s.e := rfl
@[simp] theorem State.popMove_w : (s.popMove).w = s.w := rfl
@[simp] theorem State.popMove_blk : (s.popMove).blk = s.blk := rfl
@[simp] theorem State.popMove_hex : (s.popMove).hex = s.hex := rfl
@[simp] theorem State.popMove_nblk : (s.popMove).nblk = s.nblk := rfl
@[simp] theorem State.popMove_len64 : (s.popMove).len64 = s.len64 := rfl
@[simp] theorem State.popMove_kblk : (s.popMove).kblk = s.kblk := rfl
@[simp] theorem State.popMove_t : (s.popMove).t = s.t := rfl
@[simp] theorem State.popMove_phase : (s.popMove).phase = s.phase := rfl
@[simp] theorem State.popMove_lenovf : (s.popMove).lenovf = s.lenovf := rfl
@[simp] theorem State.popMove_err : (s.popMove).err = s.err := rfl
@[simp] theorem State.popMove_cfg : (s.popMove).cfg = s.cfg := rfl
@[simp] theorem State.popMove_script : (s.popMove).script = s.script.tail := rfl
@[simp] theorem State.popMove_replies : (s.popMove).replies = s.replies := rfl
@[simp] theorem State.popMove_draws : (s.popMove).draws = s.draws := rfl

end Popmove

section Reply
variable (s : State) (r : HostReply)

@[simp] theorem State.reply_mem : (s.reply r).mem = s.mem := rfl
@[simp] theorem State.reply_msglen : (s.reply r).msglen = s.msglen := rfl
@[simp] theorem State.reply_msglenWritten : (s.reply r).msglenWritten = s.msglenWritten := rfl
@[simp] theorem State.reply_h : (s.reply r).h = s.h := rfl
@[simp] theorem State.reply_a : (s.reply r).a = s.a := rfl
@[simp] theorem State.reply_b : (s.reply r).b = s.b := rfl
@[simp] theorem State.reply_c : (s.reply r).c = s.c := rfl
@[simp] theorem State.reply_d : (s.reply r).d = s.d := rfl
@[simp] theorem State.reply_e : (s.reply r).e = s.e := rfl
@[simp] theorem State.reply_w : (s.reply r).w = s.w := rfl
@[simp] theorem State.reply_blk : (s.reply r).blk = s.blk := rfl
@[simp] theorem State.reply_hex : (s.reply r).hex = s.hex := rfl
@[simp] theorem State.reply_nblk : (s.reply r).nblk = s.nblk := rfl
@[simp] theorem State.reply_len64 : (s.reply r).len64 = s.len64 := rfl
@[simp] theorem State.reply_kblk : (s.reply r).kblk = s.kblk := rfl
@[simp] theorem State.reply_t : (s.reply r).t = s.t := rfl
@[simp] theorem State.reply_phase : (s.reply r).phase = s.phase := rfl
@[simp] theorem State.reply_lenovf : (s.reply r).lenovf = s.lenovf := rfl
@[simp] theorem State.reply_err : (s.reply r).err = s.err := rfl
@[simp] theorem State.reply_cfg : (s.reply r).cfg = s.cfg := rfl
@[simp] theorem State.reply_script : (s.reply r).script = s.script := rfl
@[simp] theorem State.reply_replies : (s.reply r).replies = s.replies ++ [r] := rfl
@[simp] theorem State.reply_draws : (s.reply r).draws = s.draws := rfl

end Reply

section Draw
variable (s : State) 

@[simp] theorem State.draw_mem : (s.draw).mem = s.mem := rfl
@[simp] theorem State.draw_msglen : (s.draw).msglen = s.msglen := rfl
@[simp] theorem State.draw_msglenWritten : (s.draw).msglenWritten = s.msglenWritten := rfl
@[simp] theorem State.draw_h : (s.draw).h = s.h := rfl
@[simp] theorem State.draw_a : (s.draw).a = s.a := rfl
@[simp] theorem State.draw_b : (s.draw).b = s.b := rfl
@[simp] theorem State.draw_c : (s.draw).c = s.c := rfl
@[simp] theorem State.draw_d : (s.draw).d = s.d := rfl
@[simp] theorem State.draw_e : (s.draw).e = s.e := rfl
@[simp] theorem State.draw_w : (s.draw).w = s.w := rfl
@[simp] theorem State.draw_blk : (s.draw).blk = s.blk := rfl
@[simp] theorem State.draw_hex : (s.draw).hex = s.hex := rfl
@[simp] theorem State.draw_nblk : (s.draw).nblk = s.nblk := rfl
@[simp] theorem State.draw_len64 : (s.draw).len64 = s.len64 := rfl
@[simp] theorem State.draw_kblk : (s.draw).kblk = s.kblk := rfl
@[simp] theorem State.draw_t : (s.draw).t = s.t := rfl
@[simp] theorem State.draw_phase : (s.draw).phase = s.phase := rfl
@[simp] theorem State.draw_lenovf : (s.draw).lenovf = s.lenovf := rfl
@[simp] theorem State.draw_err : (s.draw).err = s.err := rfl
@[simp] theorem State.draw_cfg : (s.draw).cfg = s.cfg := rfl
@[simp] theorem State.draw_script : (s.draw).script = s.script := rfl
@[simp] theorem State.draw_replies : (s.draw).replies = s.replies := rfl
@[simp] theorem State.draw_draws : (s.draw).draws = s.draws + 1 := rfl

end Draw

section Setwork
variable (s : State) (x : Work)

@[simp] theorem State.setWork_mem : (s.setWork x).mem = s.mem := rfl
@[simp] theorem State.setWork_msglen : (s.setWork x).msglen = s.msglen := rfl
@[simp] theorem State.setWork_msglenWritten : (s.setWork x).msglenWritten = s.msglenWritten := rfl
@[simp] theorem State.setWork_h : (s.setWork x).h = s.h := rfl
@[simp] theorem State.setWork_a : (s.setWork x).a = x.a := rfl
@[simp] theorem State.setWork_b : (s.setWork x).b = x.b := rfl
@[simp] theorem State.setWork_c : (s.setWork x).c = x.c := rfl
@[simp] theorem State.setWork_d : (s.setWork x).d = x.d := rfl
@[simp] theorem State.setWork_e : (s.setWork x).e = x.e := rfl
@[simp] theorem State.setWork_w : (s.setWork x).w = s.w := rfl
@[simp] theorem State.setWork_blk : (s.setWork x).blk = s.blk := rfl
@[simp] theorem State.setWork_hex : (s.setWork x).hex = s.hex := rfl
@[simp] theorem State.setWork_nblk : (s.setWork x).nblk = s.nblk := rfl
@[simp] theorem State.setWork_len64 : (s.setWork x).len64 = s.len64 := rfl
@[simp] theorem State.setWork_kblk : (s.setWork x).kblk = s.kblk := rfl
@[simp] theorem State.setWork_t : (s.setWork x).t = s.t := rfl
@[simp] theorem State.setWork_phase : (s.setWork x).phase = s.phase := rfl
@[simp] theorem State.setWork_lenovf : (s.setWork x).lenovf = s.lenovf := rfl
@[simp] theorem State.setWork_err : (s.setWork x).err = s.err := rfl
@[simp] theorem State.setWork_cfg : (s.setWork x).cfg = s.cfg := rfl
@[simp] theorem State.setWork_script : (s.setWork x).script = s.script := rfl
@[simp] theorem State.setWork_replies : (s.setWork x).replies = s.replies := rfl
@[simp] theorem State.setWork_draws : (s.setWork x).draws = s.draws := rfl

end Setwork

section Resetcore
variable (s : State) 

@[simp] theorem State.resetCore_mem : (s.resetCore).mem = [] := rfl
@[simp] theorem State.resetCore_msglen : (s.resetCore).msglen = State.reset.msglen := rfl
@[simp] theorem State.resetCore_msglenWritten : (s.resetCore).msglenWritten = false := rfl
@[simp] theorem State.resetCore_h : (s.resetCore).h = State.reset.h := rfl
@[simp] theorem State.resetCore_a : (s.resetCore).a = State.reset.a := rfl
@[simp] theorem State.resetCore_b : (s.resetCore).b = State.reset.b := rfl
@[simp] theorem State.resetCore_c : (s.resetCore).c = State.reset.c := rfl
@[simp] theorem State.resetCore_d : (s.resetCore).d = State.reset.d := rfl
@[simp] theorem State.resetCore_e : (s.resetCore).e = State.reset.e := rfl
@[simp] theorem State.resetCore_w : (s.resetCore).w = State.reset.w := rfl
@[simp] theorem State.resetCore_blk : (s.resetCore).blk = State.reset.blk := rfl
@[simp] theorem State.resetCore_hex : (s.resetCore).hex = State.reset.hex := rfl
@[simp] theorem State.resetCore_nblk : (s.resetCore).nblk = State.reset.nblk := rfl
@[simp] theorem State.resetCore_len64 : (s.resetCore).len64 = State.reset.len64 := rfl
@[simp] theorem State.resetCore_kblk : (s.resetCore).kblk = State.reset.kblk := rfl
@[simp] theorem State.resetCore_t : (s.resetCore).t = State.reset.t := rfl
@[simp] theorem State.resetCore_phase : (s.resetCore).phase = phaseIdle := rfl
@[simp] theorem State.resetCore_lenovf : (s.resetCore).lenovf = false := rfl
@[simp] theorem State.resetCore_err : (s.resetCore).err = .none := rfl
@[simp] theorem State.resetCore_cfg : (s.resetCore).cfg = s.cfg := rfl
@[simp] theorem State.resetCore_script : (s.resetCore).script = s.script := rfl
@[simp] theorem State.resetCore_replies : (s.resetCore).replies = s.replies := rfl
@[simp] theorem State.resetCore_draws : (s.resetCore).draws = s.draws := rfl

end Resetcore

end Sys2Proof.Machine
end

