-- ==== Sys2Proof/Laws/Meanings.lean ====
section
/-! SUPPORT. Once for each meaning and each shared host operation: everything it can answer. -/

namespace Sys2Proof.Machine

theorem execFetch_cases (s : State) :
    (blockBeyondMsg s = true ∧ execFetch s = .fault .noSuchMsgAddress) ∨
    (blockBeyondMsg s = false ∧ ∃ block, streamBlock s = some block ∧
      execFetch s = .next ({ s with blk := block }.goto phaseDecode)) ∨
    (blockBeyondMsg s = false ∧ streamBlock s = none ∧ execFetch s = .next (s.raise .uninit)) := by
  unfold execFetch
  cases hbeyond : blockBeyondMsg s with
  | true => exact .inl ⟨rfl, rfl⟩
  | false =>
    cases hblock : streamBlock s with
    | some block => exact .inr (.inl ⟨rfl, block, rfl, rfl⟩)
    | none => exact .inr (.inr ⟨rfl, rfl, rfl⟩)

theorem execRound_last {s : State} (ht : s.t.val = 79) :
    execRound s = .next ((s.setWork (roundOf s.t.val s.w[s.t.val] s.work)).goto phaseFold) := by
  simp [execRound, ht]

theorem execRound_inner {s : State} {next : Fin 80} (ht : next.val = s.t.val + 1) :
    execRound s = .next ({ s.setWork (roundOf s.t.val s.w[s.t.val] s.work) with t := next }.goto phaseRound) := by
  have hne : s.t.val ≠ 79 := by have := next.isLt; omega
  have hnext : next = ⟨s.t.val + 1, by have := next.isLt; omega⟩ := Fin.ext ht
  simp [execRound, hne, hnext]

/-- ROUND always answers, and writes A to E, T and PHASE only. -/
theorem execRound_cases (s : State) :
    ∃ x next p, execRound s = .next ({ s.setWork x with t := next }.goto p) ∧
      ((s.t.val = 79 ∧ next = s.t ∧ p = phaseFold) ∨ (s.t.val < 79 ∧ next.val = s.t.val + 1 ∧ p = phaseRound)) := by
  rcases Nat.lt_or_ge s.t.val 79 with hlt | hge
  · exact ⟨_, ⟨s.t.val + 1, by omega⟩, _, execRound_inner rfl, .inr ⟨hlt, rfl, rfl⟩⟩
  · have ht : s.t.val = 79 := by have := s.t.isLt; omega
    exact ⟨roundOf s.t.val s.w[s.t.val] s.work, s.t, phaseFold, execRound_last ht, .inl ⟨ht, rfl, rfl⟩⟩

/-- FOLD always answers, and writes H, KBLK and PHASE only. -/
theorem execFold_cases (s : State) :
    (s.kblk + 1 = s.nblk ∧ execFold s = .next ({ s with h := foldInto s.h s.work }.goto phaseFormat)) ∨
    (s.kblk + 1 ≠ s.nblk ∧
      execFold s = .next ({ s with h := foldInto s.h s.work, kblk := s.kblk + 1 }.goto phaseFetch)) := by
  unfold execFold
  by_cases hlast : s.kblk + 1 = s.nblk
  · exact .inl ⟨hlast, if_pos hlast⟩
  · exact .inr ⟨hlast, if_neg hlast⟩

/-- START always answers: nothing, a fault entry, or the accepted case. -/
theorem execStart_cases (ignored : BitVec 7) (s : State) :
    (s.faulted = true ∧ execStart ignored s = .next s) ∨
    (s.faulted = false ∧ s.busy = true ∧ execStart ignored s = .next (s.raise .reentry)) ∨
    (s.faulted = false ∧ s.busy = false ∧ s.msglenWritten = false ∧ execStart ignored s = .next (s.raise .uninit)) ∨
    (s.faulted = false ∧ s.busy = false ∧ s.msglenWritten = true ∧ s.cfg.msgCap < s.msglen ∧
      execStart ignored s = .next (s.raise .alloc)) ∨
    (s.faulted = false ∧ s.busy = false ∧ s.msglenWritten = true ∧ s.msglen ≤ s.cfg.msgCap ∧
      execStart ignored s = .next ({ s with lenovf := false }.goto phaseInit)) := by
  unfold execStart
  cases s.faulted with
  | true => exact .inl ⟨rfl, rfl⟩
  | false =>
    cases s.busy with
    | true => exact .inr (.inl ⟨rfl, rfl, rfl⟩)
    | false =>
      cases s.msglenWritten with
      | false => exact .inr (.inr (.inl ⟨rfl, rfl, rfl, rfl⟩))
      | true =>
        by_cases hcap : s.cfg.msgCap < s.msglen
        · exact .inr (.inr (.inr (.inl ⟨rfl, rfl, rfl, hcap, by simp [hcap]⟩)))
        · exact .inr (.inr (.inr (.inr ⟨rfl, rfl, rfl, by omega, by simp [hcap]⟩)))

theorem hostWriteMsg_cases (addr : Nat) (v : Byte) (s : State) :
    (s.faulted = true ∧ hostWriteMsg addr v s = s) ∨
    (s.faulted = false ∧ s.busy = true ∧ hostWriteMsg addr v s = s.raise .inputMutated) ∨
    (s.faulted = false ∧ s.busy = false ∧ s.cfg.msgCap ≤ addr ∧ hostWriteMsg addr v s = s.raise .alloc) ∨
    (s.faulted = false ∧ s.busy = false ∧ addr < s.cfg.msgCap ∧
      hostWriteMsg addr v s = { s with mem := Memory.write s.mem addr v }) := by
  unfold hostWriteMsg
  cases s.faulted with
  | true => exact .inl ⟨rfl, rfl⟩
  | false =>
    cases s.busy with
    | true => exact .inr (.inl ⟨rfl, rfl, rfl⟩)
    | false =>
      by_cases hcap : s.cfg.msgCap ≤ addr
      · exact .inr (.inr (.inl ⟨rfl, rfl, hcap, by simp [hcap]⟩))
      · exact .inr (.inr (.inr ⟨rfl, rfl, by omega, by simp [hcap]⟩))

theorem hostWriteLen_cases (v : Nat) (s : State) :
    (s.faulted = true ∧ hostWriteLen v s = s) ∨
    (s.faulted = false ∧ s.busy = true ∧ hostWriteLen v s = s.raise .inputMutated) ∨
    (s.faulted = false ∧ s.busy = false ∧ hostWriteLen v s = { s with msglen := v, msglenWritten := true }) := by
  unfold hostWriteLen
  cases s.faulted with
  | true => exact .inl ⟨rfl, rfl⟩
  | false =>
    cases s.busy with
    | true => exact .inr (.inl ⟨rfl, rfl, rfl⟩)
    | false => exact .inr (.inr ⟨rfl, rfl, rfl⟩)

/-- A host read that answers adds one reply and changes nothing else but the count of free values (R212). -/
theorem hostReadReg_next {reg : Nat} {s t : State} (hread : hostReadReg reg s = .next t) :
    ∃ r n, t = { s with replies := s.replies ++ [r], draws := n } := by
  unfold hostReadReg at hread
  split at hread
  · cases hread; exact ⟨_, s.draws, rfl⟩
  · cases hread; exact ⟨_, s.draws, rfl⟩
  · cases hread
    unfold hostReadLen
    split
    · exact ⟨_, s.draws, rfl⟩
    · exact ⟨_, s.draws + 1, rfl⟩
  · cases hread
  · cases hread
    unfold hostReadH
    split
    · exact ⟨_, s.draws, rfl⟩
    · exact ⟨_, s.draws + 1, rfl⟩
  · cases hread
    unfold hostReadHex
    split
    · exact ⟨_, s.draws, rfl⟩
    · exact ⟨_, s.draws + 1, rfl⟩
  · cases hread

/-- A host register write that answers here is a write of MSGLEN that fits. -/
theorem hostWriteReg_next {reg v : Nat} {s t : State} (hwrite : hostWriteReg reg v s = .next t) :
    portReg reg = some .msglen ∧ v < 2 ^ s.cfg.lenBits ∧ t = hostWriteLen v s := by
  unfold hostWriteReg at hwrite
  split at hwrite
  · rename_i hreg
    split at hwrite
    · cases hwrite; exact ⟨hreg, ‹_›, rfl⟩
    · cases hwrite
  all_goals cases hwrite

end Sys2Proof.Machine
end

