-- ==== Sys2Proof/Laws/Memory.lean ====
section
/-! SUPPORT. The laws of the message memory: a read after a write, and that a write keeps the canonical form and the
address range. -/

namespace Sys2Proof.Machine

theorem Memory.read_write_same (m : List Host.Cell) (addr : Nat) (v : Byte) :
    Memory.read (Memory.write m addr v) addr = some v := by
  induction m with
  | nil => simp [Memory.write, Memory.read]
  | cons cell rest ih =>
    simp only [Memory.write]
    split
    · simp [Memory.read]
    · split
      · simp [Memory.read]
      · have hne : ¬ cell.1 = addr := fun hc => by simp_all
        simp [Memory.read, hne, ih]

theorem Memory.read_write_other (m : List Host.Cell) {addr other : Nat} (v : Byte) (hne : other ≠ addr) :
    Memory.read (Memory.write m addr v) other = Memory.read m other := by
  have hne' : addr ≠ other := hne.symm
  induction m with
  | nil => simp [Memory.write, Memory.read, hne']
  | cons cell rest ih =>
    simp only [Memory.write]
    split
    · simp [Memory.read, hne']
    · split
      · rename_i heq
        simp [Memory.read, hne', ← heq]
      · simp [Memory.read, ih]

theorem Memory.risesAbove_write {low addr : Nat} (m : List Host.Cell) (v : Byte) (hlow : low < addr)
    (hm : Memory.risesAbove low m = true) : Memory.risesAbove low (Memory.write m addr v) = true := by
  induction m generalizing low with
  | nil => simp [Memory.write, Memory.risesAbove, hlow]
  | cons cell rest ih =>
    simp only [Memory.risesAbove, Bool.and_eq_true, decide_eq_true_eq] at hm
    simp only [Memory.write]
    split
    · rename_i hlt
      simp [Memory.risesAbove, hlow, hlt, hm.2]
    · split
      · rename_i heq
        simp [Memory.risesAbove, heq, hm.1, hm.2]
      · have hgt : cell.1 < addr := by omega
        simp [Memory.risesAbove, hm.1, ih hgt hm.2]

/-- Every write keeps the canonical form. -/
theorem Memory.wf_write {m : List Host.Cell} (addr : Nat) (v : Byte) (hm : Memory.wf m = true) :
    Memory.wf (Memory.write m addr v) = true := by
  cases m with
  | nil => rfl
  | cons cell rest =>
    simp only [Memory.wf] at hm
    simp only [Memory.write]
    split
    · rename_i hlt
      simp [Memory.wf, Memory.risesAbove, hlt, hm]
    · split
      · rename_i heq
        simp [Memory.wf, heq, hm]
      · have hgt : cell.1 < addr := by omega
        simp [Memory.wf, Memory.risesAbove_write rest v hgt hm]

/-- A write inside MSG stays inside MSG. -/
theorem Memory.within_write {cap addr : Nat} {m : List Host.Cell} (v : Byte) (haddr : addr < cap)
    (hm : Memory.within cap m = true) : Memory.within cap (Memory.write m addr v) = true := by
  induction m with
  | nil => simp [Memory.within, Memory.write, haddr]
  | cons cell rest ih =>
    simp only [Memory.within, List.all_cons, Bool.and_eq_true, decide_eq_true_eq] at hm ih ⊢
    simp only [Memory.write]
    split
    · simp [haddr, hm.1, hm.2]
    · split
      · simp [haddr, hm.2]
      · simp [hm.1, ih hm.2]

theorem reset_memory_wf : Memory.wf State.reset.mem = true := rfl

end Sys2Proof.Machine
end

