-- ==== Sys2Proof/Laws/PerInstr.lean ====
section
/-! SUPPORT. The family TableWord: what spec/opcode_table.json says of each operation's word, one lemma per constructor. -/

open Sys2Proof

/-- The table's "mask" of an operation's row. -/
def Sys2Proof.Laws.TableWord.mask : Instr → Byte
  | .start _ => 0x01
  | .cmdnop _ => 0x01
  | .idle | .init | .pad | .fetch | .decode | .expand | .loadw | .round | .fold | .format | .done
  | .reserved11 | .reserved12 | .reserved13 | .reserved14 | .fault => 0x0F

/-- The table's "match" of an operation's row. -/
def Sys2Proof.Laws.TableWord.word : Instr → Byte
  | .idle => 0
  | .init => 1
  | .pad => 2
  | .fetch => 3
  | .decode => 4
  | .expand => 5
  | .loadw => 6
  | .round => 7
  | .fold => 8
  | .format => 9
  | .done => 10
  | .reserved11 => 11
  | .reserved12 => 12
  | .reserved13 => 13
  | .reserved14 => 14
  | .fault => 15
  | .start _ => 1
  | .cmdnop _ => 0

/-- The operation is well formed, its one byte is the row's "match" under the row's "mask", and the decoder reads it back. -/
def Sys2Proof.Laws.TableWord.Statement (i : Instr) : Prop :=
  i.wellFormed = true ∧ encodeByte i &&& TableWord.mask i = TableWord.word i ∧
    decode (formatOf i) (encode i) = .ok (i, [])

theorem Sys2Proof.Laws.TableWord.idle : TableWord.Statement .idle := ⟨rfl, rfl, rfl⟩

theorem Sys2Proof.Laws.TableWord.init : TableWord.Statement .init := ⟨rfl, rfl, rfl⟩

theorem Sys2Proof.Laws.TableWord.pad : TableWord.Statement .pad := ⟨rfl, rfl, rfl⟩

theorem Sys2Proof.Laws.TableWord.fetch : TableWord.Statement .fetch := ⟨rfl, rfl, rfl⟩

theorem Sys2Proof.Laws.TableWord.decode : TableWord.Statement .decode := ⟨rfl, rfl, rfl⟩

theorem Sys2Proof.Laws.TableWord.expand : TableWord.Statement .expand := ⟨rfl, rfl, rfl⟩

theorem Sys2Proof.Laws.TableWord.loadw : TableWord.Statement .loadw := ⟨rfl, rfl, rfl⟩

theorem Sys2Proof.Laws.TableWord.round : TableWord.Statement .round := ⟨rfl, rfl, rfl⟩

theorem Sys2Proof.Laws.TableWord.fold : TableWord.Statement .fold := ⟨rfl, rfl, rfl⟩

theorem Sys2Proof.Laws.TableWord.format : TableWord.Statement .format := ⟨rfl, rfl, rfl⟩

theorem Sys2Proof.Laws.TableWord.done : TableWord.Statement .done := ⟨rfl, rfl, rfl⟩

theorem Sys2Proof.Laws.TableWord.reserved11 : TableWord.Statement .reserved11 := ⟨rfl, rfl, rfl⟩

theorem Sys2Proof.Laws.TableWord.reserved12 : TableWord.Statement .reserved12 := ⟨rfl, rfl, rfl⟩

theorem Sys2Proof.Laws.TableWord.reserved13 : TableWord.Statement .reserved13 := ⟨rfl, rfl, rfl⟩

theorem Sys2Proof.Laws.TableWord.reserved14 : TableWord.Statement .reserved14 := ⟨rfl, rfl, rfl⟩

theorem Sys2Proof.Laws.TableWord.fault : TableWord.Statement .fault := ⟨rfl, rfl, rfl⟩

theorem Sys2Proof.Laws.TableWord.start (ignored : BitVec 7) : TableWord.Statement (.start ignored) := by
  refine ⟨rfl, ?_, ?_⟩
  · revert ignored; decide
  · simp only [formatOf, encode, Sys2Proof.decode, encodeByte]
    congr 2
    revert ignored; decide

theorem Sys2Proof.Laws.TableWord.cmdnop (ignored : BitVec 7) : TableWord.Statement (.cmdnop ignored) := by
  refine ⟨rfl, ?_, ?_⟩
  · revert ignored; decide
  · simp only [formatOf, encode, Sys2Proof.decode, encodeByte]
    congr 2
    revert ignored; decide
end

