-- ==== Sys2Proof/Laws/Step.lean ====
section
/-! SUPPORT. What one step can be, and runs of several steps. -/

namespace Sys2Proof.Machine

theorem step_of_fetch {s s' : State} {i : Instr} (hfetch : fetch s = some (i, s')) : step s = exec i s' := by
  simp [step, hfetch]

theorem step_of_no_fetch {s : State} (hfetch : fetch s = none) : step s = portStep s := by
  simp [step, hfetch]

theorem fetch_empty {s : State} (hscript : s.script = []) : fetch s = some (decodePhase s.phase, s) := by
  simp [fetch, hscript]

theorem portReg_cmd {n : Nat} (hreg : portReg n = some .cmd) : n = 3 := by
  unfold portReg at hreg
  repeat' split at hreg
  all_goals first | assumption | cases hreg

theorem portReg_msglen {n : Nat} (hreg : portReg n = some .msglen) : n = 2 := by
  unfold portReg at hreg
  repeat' split at hreg
  all_goals first | assumption | cases hreg

/-- The operation a step runs is the one PHASE encodes or a host command; the state it runs on differs from the old one
by the script only. -/
theorem fetch_cases {s s' : State} {i : Instr} (hfetch : fetch s = some (i, s')) :
    (i = decodePhase s.phase ∧ (s' = s ∨ s' = s.popMove) ∧
      (s.script = [] ∨ (∃ rest, s.script = .tick :: rest) ∨ (∃ rest, s.script = .wait :: rest))) ∨
    (∃ v rest, s.script = .writeReg 3 v :: rest ∧ v < 256 ∧ i = decodeCmd (BitVec.ofNat 8 v) ∧ s' = s.popMove) := by
  unfold fetch at hfetch
  split at hfetch
  · cases hfetch; exact .inl ⟨rfl, .inl rfl, .inl ‹_›⟩
  · cases hfetch; exact .inl ⟨rfl, .inr rfl, .inr (.inl ⟨_, ‹_›⟩)⟩
  · split at hfetch
    · cases hfetch; exact .inl ⟨rfl, .inl rfl, .inr (.inr ⟨_, ‹_›⟩)⟩
    · cases hfetch
  · rename_i reg v rest hscript
    split at hfetch
    · rename_i hcmd
      cases hfetch
      rw [portReg_cmd hcmd.1] at hscript
      exact .inr ⟨v, rest, hscript, hcmd.2, rfl, rfl⟩
    · cases hfetch
  all_goals cases hfetch

/-- Everything a host move can answer, on the state after the move is taken off the script. -/
theorem hostMove_cases {move : HostMove} {s t : State} (hmove : hostMove move s = .next t) :
    (move = .reset ∧ t = s.resetCore) ∨ ((move = .tick ∨ move = .wait) ∧ t = s) ∨
    (∃ addr v, move = .writeMsg addr v ∧ t = hostWriteMsg addr v s) ∨
    (∃ v, move = .writeReg 2 v ∧ v < 2 ^ s.cfg.lenBits ∧ t = hostWriteLen v s) ∨
    (∃ reg r n, move = .readReg reg ∧ t = { s with replies := s.replies ++ [r], draws := n }) := by
  cases move with
  | reset => cases hmove; exact .inl ⟨rfl, rfl⟩
  | tick => cases hmove; exact .inr (.inl ⟨.inl rfl, rfl⟩)
  | wait => cases hmove; exact .inr (.inl ⟨.inr rfl, rfl⟩)
  | writeMsg addr v => cases hmove; exact .inr (.inr (.inl ⟨addr, v, rfl, rfl⟩))
  | readMsg addr => cases hmove
  | writeReg reg v =>
    obtain ⟨hreg, hv, ht⟩ := hostWriteReg_next hmove
    rw [portReg_msglen hreg]
    exact .inr (.inr (.inr (.inl ⟨v, rfl, hv, ht⟩)))
  | readReg reg =>
    obtain ⟨r, n, ht⟩ := hostReadReg_next hmove
    exact .inr (.inr (.inr (.inr ⟨reg, r, n, rfl, ht⟩)))

/-- Everything a step can be: an operation of the opcode table, or a host move. -/
theorem step_cases {s t : State} (hstep : step s = .next t) :
    (∃ i s', fetch s = some (i, s') ∧ exec i s' = .next t) ∨
    (∃ move rest, s.script = move :: rest ∧ fetch s = none ∧ hostMove move s.popMove = .next t) := by
  cases hfetch : fetch s with
  | some pair =>
    obtain ⟨i, s'⟩ := pair
    rw [step_of_fetch hfetch] at hstep
    exact .inl ⟨i, s', rfl, hstep⟩
  | none =>
    rw [step_of_no_fetch hfetch] at hstep
    cases hscript : s.script with
    | nil => simp [fetch, hscript] at hfetch
    | cons move rest =>
      simp only [portStep, hscript] at hstep
      exact .inr ⟨move, rest, rfl, rfl, hstep⟩

@[simp] theorem run_zero (s : State) : Sys2Proof.core.run 0 s = .next s := rfl

theorem coreRun_succ_of_step (M : Host.Core) (n : Nat) {s t : M.State} (hstep : M.step s = .next t) :
    M.run (n + 1) s = M.run n t := by
  simp only [Host.Core.run, hstep]

theorem coreRun_succ_next (M : Host.Core) (n : Nat) {s t : M.State} (hrun : M.run (n + 1) s = .next t) :
    ∃ u, M.step s = .next u ∧ M.run n u = .next t := by
  simp only [Host.Core.run] at hrun
  split at hrun
  · exact ⟨_, ‹_›, hrun⟩
  · cases hrun
  · cases hrun

theorem run_succ_of_step {s t : State} (n : Nat) (hstep : step s = .next t) :
    Sys2Proof.core.run (n + 1) s = Sys2Proof.core.run n t :=
  coreRun_succ_of_step Sys2Proof.core n hstep

theorem run_succ_next {s t : State} {n : Nat} (hrun : Sys2Proof.core.run (n + 1) s = .next t) :
    ∃ u, step s = .next u ∧ Sys2Proof.core.run n u = .next t :=
  coreRun_succ_next Sys2Proof.core n hrun

/-- A run of m + n steps is a run of m and then of n. -/
theorem run_add_of_run {s t : State} (m n : Nat) (hrun : Sys2Proof.core.run m s = .next t) :
    Sys2Proof.core.run (m + n) s = Sys2Proof.core.run n t := by
  induction m generalizing s with
  | zero => cases hrun; rw [Nat.zero_add]
  | succ m ih =>
    obtain ⟨u, hstep, hrest⟩ := run_succ_next hrun
    rw [Nat.succ_add, run_succ_of_step (m + n) hstep]
    exact ih hrest

end Sys2Proof.Machine
end

