-- ==== Sys2Proof/Tests/Slice0.lean ====
section
/-! SUPPORT. The model's own tests: what WellFormed refuses, words written out from spec/30_encoding.md, single steps whose
expected values are those of spec/95_test_vectors.md, and for every obligation with hypotheses a witness that they can be
met, at the boundary values of its clauses. -/

namespace Sys2Proof.Tests

open Sys2Proof.Machine

/-- The state a step answers, if it answers one. -/
def answer : Host.Outcome State Fault Refusal → Option State
  | .next t => some t
  | .fault _ => none
  | .refused _ => none

/-- Reset with another PHASE. -/
def atPhase (p : BitVec 4) : State := { State.reset with phase := p }

/-- Reset with another PHASE and one host move to come. -/
def withMove (move : HostMove) (p : BitVec 4) : State := { atPhase p with script := [move] }

/-- "abc" in place, and the padder's registers as PAD leaves them for it. -/
def abc (p : BitVec 4) : State :=
  { atPhase p with mem := [(0, 0x61), (1, 0x62), (2, 0x63)], msglen := 3, msglenWritten := true, len64 := 0x18 }

/-- Accumulators as INIT leaves them (spec/95 section 6.0). -/
def inited (p : BitVec 4) : State := { abc p with h := #v[0x67452301, 0xEFCDAB89, 0x98BADCFE, 0x10325476, 0xC3D2E1F0] }

/-- "abc" before round 0: spec/95 section 6.0. -/
def beforeRound0 : State :=
  { inited phaseRound with
    a := 0x67452301, b := 0xEFCDAB89, c := 0x98BADCFE, d := 0x10325476, e := 0xC3D2E1F0
    w := (Vector.replicate 80 0).set 0 0x61626380 }

/-- "abc" after round 79: the last row of spec/95 section 6.1. -/
def beforeFold : State :=
  { inited phaseFold with
    a := 0x42541B35, b := 0x5738D5E1, c := 0x21834873, d := 0x681E6DF6, e := 0xD8FDF6AD, t := 79 }

/-! What WellFormed refuses (spec/10_state.md R33), one term for each check. -/

theorem test_wellFormed_refuses_unused_number :
    HostMove.wellFormed Config.scriptParams (.readReg 9) = false ∧
    HostMove.wellFormed Config.scriptParams (.readReg 15) = false ∧
    HostMove.wellFormed Config.scriptParams (.writeReg 56 0) = false := by decide

theorem test_wellFormed_refuses_write_of_read_only :
    HostMove.wellFormed Config.scriptParams (.writeReg 0 0) = false ∧
    HostMove.wellFormed Config.scriptParams (.writeReg 1 0) = false ∧
    HostMove.wellFormed Config.scriptParams (.writeReg 4 0) = false ∧
    HostMove.wellFormed Config.scriptParams (.writeReg 55 0) = false := by decide

theorem test_wellFormed_refuses_read_of_cmd_and_msg :
    HostMove.wellFormed Config.scriptParams (.readReg 3) = false ∧
    HostMove.wellFormed Config.scriptParams (.readMsg 0) = false := by decide

theorem test_wellFormed_refuses_wide_values :
    HostMove.wellFormed Config.scriptParams (.writeReg 2 (2 ^ 64)) = false ∧
    HostMove.wellFormed Config.scriptParams (.writeReg 3 256) = false := by decide

theorem test_wellFormed_accepts_the_moves :
    HostMove.wellFormed Config.scriptParams (.writeReg 2 (2 ^ 64 - 1)) = true ∧
    HostMove.wellFormed Config.scriptParams (.writeReg 3 255) = true ∧
    HostMove.wellFormed Config.scriptParams (.readReg 8) = true ∧
    HostMove.wellFormed Config.scriptParams (.readReg 16) = true ∧
    HostMove.wellFormed Config.scriptParams (.writeMsg 65536 0) = true := by decide

theorem test_legal_parameters : Config.scriptParams.legal = true ∧ Config.Params.legal ⟨0, 0⟩ = false ∧
    Config.Params.legal ⟨8, 3⟩ = false ∧ Config.Params.legal ⟨7, 3⟩ = true := by decide

/-! Words written out from the opcode map (spec/30_encoding.md R99 to R101), bit by bit: every constructor. -/

theorem test_decode_phase_codes :
    decode .phase4 [0b00000000] = .ok (.idle, []) ∧ decode .phase4 [0b00000001] = .ok (.init, []) ∧
    decode .phase4 [0b00000010] = .ok (.pad, []) ∧ decode .phase4 [0b00000011] = .ok (.fetch, []) ∧
    decode .phase4 [0b00000100] = .ok (.decode, []) ∧ decode .phase4 [0b00000101] = .ok (.expand, []) ∧
    decode .phase4 [0b00000110] = .ok (.loadw, []) ∧ decode .phase4 [0b00000111] = .ok (.round, []) ∧
    decode .phase4 [0b00001000] = .ok (.fold, []) ∧ decode .phase4 [0b00001001] = .ok (.format, []) ∧
    decode .phase4 [0b00001010] = .ok (.done, []) :=
  ⟨rfl, rfl, rfl, rfl, rfl, rfl, rfl, rfl, rfl, rfl, rfl⟩

theorem test_decode_reserved_and_fault_codes :
    decode .phase4 [0b00001011] = .ok (.reserved11, []) ∧ decode .phase4 [0b00001100] = .ok (.reserved12, []) ∧
    decode .phase4 [0b00001101] = .ok (.reserved13, []) ∧ decode .phase4 [0b00001110] = .ok (.reserved14, []) ∧
    decode .phase4 [0b00001111] = .ok (.fault, []) :=
  ⟨rfl, rfl, rfl, rfl, rfl⟩

theorem test_decode_cmd_values :
    decode .cmd8 [0b00000001] = .ok (.start 0, []) ∧ decode .cmd8 [0b10000001] = .ok (.start 0b1000000, []) ∧
    decode .cmd8 [0b00000000] = .ok (.cmdnop 0, []) ∧ decode .cmd8 [0b11111110] = .ok (.cmdnop 0b1111111, []) :=
  ⟨rfl, rfl, rfl, rfl⟩

theorem test_decode_refuses :
    decode .phase4 [] = .error .noBytes ∧ decode .cmd8 [] = .error .noBytes ∧
    decode .phase4 [0b00010000] = .error (.phaseTooWide 0b00010000) := ⟨rfl, rfl, rfl⟩

theorem test_decode_leaves_the_rest :
    decode .cmd8 [0x01, 0xAA] = .ok (.start 0, [0xAA]) ∧ decode .phase4 [0x0A, 0x01] = .ok (.done, [0x01]) := ⟨rfl, rfl⟩

theorem test_table_words :
    decodeTableWord 4 0x7 = some .round ∧ decodeTableWord 4 0xE = some .reserved14 ∧
    decodeTableWord 8 0x01 = some (.start 0) ∧ decodeTableWord 8 0x00 = some (.cmdnop 0) ∧
    decodeTableWord 8 0x07 = some .round ∧ decodeTableWord 8 0x81 = some (.start 0x40) ∧
    decodeTableWord 9 0x01 = none := by decide

theorem test_withFetchWord_runs_the_word :
    (answer (step (State.reset.withFetchWord 4 1))).map (fun t => (t.h[0], t.phase)) = some (0x67452301, phasePad) ∧
    (answer (step (State.reset.withFetchWord 8 1))).map (fun t => (t.err, t.phase)) = some (.uninit, phaseFault) := by
  decide

/-! Operand forms: spec/95 sections 2.1, 2.3 and 3. -/

theorem test_rotl :
    rotl 0x80000001 1 = 0x00000003 ∧ rotl 0x12345678 5 = 0x468ACF02 ∧ rotl 0x12345678 30 = 0x048D159E ∧
    rotl 0x12345678 0 = 0x12345678 ∧ rotl 0x12345678 32 = 0x12345678 ∧ rotl 0x12345678 37 = 0x468ACF02 := by decide

theorem test_mix_at_stage_ends :
    ([0, 19, 20, 39, 40, 59, 60, 79].map fun t => mix t 0xF0F0F0F0 0xCCCCCCCC 0xAAAAAAAA) =
      [0xCACACACA, 0xCACACACA, 0x96969696, 0x96969696, 0xE8E8E8E8, 0xE8E8E8E8, 0x96969696, 0x96969696] := by decide

theorem test_round_constants_at_stage_ends :
    ([0, 19, 20, 39, 40, 59, 60, 79].map roundConst) =
      [0x5A827999, 0x5A827999, 0x6ED9EBA1, 0x6ED9EBA1, 0x8F1BBCDC, 0x8F1BBCDC, 0xCA62C1D6, 0xCA62C1D6] := by decide

theorem test_zero_fill_and_blocks :
    ([0, 3, 54, 55, 56, 63, 64, 119, 120].map fun L => (zeroFill L, blockCount L)) =
      [(55, 1), (52, 1), (1, 1), (0, 1), (63, 2), (56, 2), (55, 2), (0, 2), (63, 3)] := by decide

theorem test_length_field :
    bitLength 55 = 0x1B8 ∧ bitLength (2 ^ 61 - 1) = 0xFFFFFFFFFFFFFFF8 ∧ bitLength (2 ^ 61 + 1) = 8 := by decide

theorem test_padded_stream_of_abc :
    (pad [0x61, 0x62, 0x63]).take 5 = [0x61, 0x62, 0x63, 0x80, 0x00] ∧
    (pad [0x61, 0x62, 0x63]).drop 62 = [0x00, 0x18] := by decide

/-! One step of each operation. -/

theorem test_idle : answer (exec .idle State.reset) = some State.reset := rfl

theorem test_init : (answer (exec .init (atPhase phaseInit))).map (fun t => (t.h.toList, t.phase)) =
    some ([0x67452301, 0xEFCDAB89, 0x98BADCFE, 0x10325476, 0xC3D2E1F0], 0b0010) := by decide

theorem test_pad_56 :
    (answer (exec .pad { abc phasePad with msglen := 56 })).map (fun t => (t.nblk, t.len64, t.lenovf, t.kblk, t.phase)) =
      some (2, 0x1C0, false, 0, 0b0011) := by decide

theorem test_pad_above_two_pow_61 :
    (answer (exec .pad { abc phasePad with msglen := 2 ^ 61 + 3 })).map (fun t => (t.nblk, t.len64, t.lenovf)) =
      some (36028797018963969, 0x18, true) := by decide

theorem test_fetch_abc :
    (answer (exec .fetch (abc phaseFetch))).map (fun t => (t.blk[2], t.blk[3], t.blk[4], t.blk[62], t.blk[63], t.phase)) =
      some (0x63, 0x80, 0x00, 0x00, 0x18, 0b0100) := by decide +kernel

theorem test_fetch_unwritten :
    (answer (exec .fetch { abc phaseFetch with mem := [(0, 0x61), (2, 0x63)] })).map (fun t => (t.err, t.phase, t.blk[0])) =
      some (.uninit, 0b1111, 0x00) := by decide +kernel

theorem test_decode_bytes :
    (answer (exec .decode { atPhase phaseDecode with
        blk := ((Vector.replicate 64 0).set 0 0xFF).set 7 0xFF })).map (fun t => (t.w[0], t.w[1], t.w[16], t.phase)) =
      some (0xFF000000, 0x000000FF, 0, 0b0101) := by decide +kernel

theorem test_expand_abc :
    (answer (exec .expand { atPhase phaseExpand with
        w := ((Vector.replicate 80 0).set 0 0x61626380).set 15 0x18 })).map
      (fun t => (t.w[16], t.w[18], t.w[19], t.w[79], t.phase)) =
      some (0xC2C4C700, 0x00000030, 0x85898E01, 0x822E0879, 0b0110) := by decide +kernel

theorem test_loadw :
    (answer (exec .loadw { inited phaseLoadw with t := 79 })).map (fun t => (t.a, t.e, t.t, t.phase)) =
      some (0x67452301, 0xC3D2E1F0, 0, 0b0111) := by decide

theorem test_round_0 :
    (answer (exec .round beforeRound0)).map (fun t => (t.a, t.b, t.c, t.d, t.e)) =
      some (0x0116FC33, 0x67452301, 0x7BF36AE2, 0x98BADCFE, 0x10325476) := by decide +kernel

theorem test_round_position :
    (answer (exec .round beforeRound0)).map (fun t => (t.t, t.phase)) = some (1, 0b0111) ∧
    (answer (exec .round { beforeRound0 with t := 79 })).map (fun t => (t.t, t.phase)) = some (79, 0b1000) := by
  decide +kernel

theorem test_fold_abc :
    (answer (exec .fold beforeFold)).map (fun t => (t.h.toList, t.phase, t.kblk)) =
      some ([0xA9993E36, 0x4706816A, 0xBA3E2571, 0x7850C26C, 0x9CD0D89D], 0b1001, 0) := by decide

theorem test_fold_more_blocks :
    (answer (exec .fold { beforeFold with nblk := 2 })).map (fun t => (t.phase, t.kblk)) = some (0b0011, 1) := by decide

theorem test_format_abc :
    (answer (exec .format { atPhase phaseFormat with
        h := #v[0xA9993E36, 0x4706816A, 0xBA3E2571, 0x7850C26C, 0x9CD0D89D] })).map (fun t => (t.hex.toList, t.phase)) =
      some ("A9993E364706816ABA3E25717850C26C9CD0D89D".toList.map (fun ch => BitVec.ofNat 8 ch.toNat), 0b1010) := by
  decide +kernel

theorem test_done_and_fault :
    answer (exec .done (atPhase phaseDone)) = some (atPhase phaseDone) ∧
    answer (exec .fault (atPhase phaseFault)) = some (atPhase phaseFault) := ⟨rfl, rfl⟩

theorem test_reserved :
    ([Instr.reserved11, .reserved12, .reserved13, .reserved14].map fun i =>
      (answer (exec i (atPhase 11))).map (fun t => (t.err, t.phase))) =
      List.replicate 4 (some (.reservedPhase, 0b1111)) := by decide

theorem test_start_accepted :
    (answer (exec (.start 0) { abc phaseDone with lenovf := true })).map (fun t => (t.lenovf, t.err, t.phase)) =
      some (false, .none, 0b0001) := by decide

theorem test_start_faults :
    (answer (exec (.start 0) (abc phaseInit))).map (fun t => t.err) = some .reentry ∧
    (answer (exec (.start 0) State.reset)).map (fun t => t.err) = some .uninit ∧
    (answer (exec (.start 0) { abc phaseIdle with msglen := 65537 })).map (fun t => t.err) = some .alloc := by decide

theorem test_cmdnop : answer (exec (.cmdnop 127) (abc phaseRound)) = some (abc phaseRound) := rfl

/-! The host port: spec/10_state.md R33, spec/20_memory.md R63 and R64, spec/45_orchestration.md R212. -/

theorem test_status_bytes :
    ([phaseIdle, phaseInit, phaseFormat, phaseDone, phaseFault, 11, 14].map fun p => (atPhase p).status) =
      [0x00, 0x01, 0x01, 0x02, 0x04, 0x04, 0x04] ∧ { atPhase phaseDone with lenovf := true }.status = 0x0A := by decide

theorem test_host_write_msg :
    (answer (step (withMove (.writeMsg 5 0xAB) phaseIdle))).map (fun t => t.mem) = some [(5, 0xAB)] ∧
    (answer (step (withMove (.writeMsg 65536 0xAB) phaseIdle))).map (fun t => t.err) = some .alloc ∧
    (answer (step (withMove (.writeMsg 5 0xAB) phaseRound))).map (fun t => (t.err, t.mem)) = some (.inputMutated, []) := by
  decide

theorem test_first_fault_is_kept :
    (answer (exec .reserved11 { atPhase 11 with err := .alloc })).map (fun t => t.err) = some .alloc := by decide

theorem test_host_reads_a_digest_word :
    (answer (step { inited phaseDone with script := [.readReg 8] })).map (fun t => (t.replies, t.draws)) =
      some ([.word (.h 4) 0xC3D2E1F0], 0) := by decide

theorem test_host_read_before_done_draws :
    (answer (step (withMove (.readReg 16) phaseIdle))).map (fun t => t.draws) = some 1 := by decide

theorem test_reset_from_a_fault :
    (answer (step { abc phaseFault with err := .alloc, script := [.reset] })).map
      (fun t => (t.phase, t.err, t.mem, t.msglenWritten)) = some (0b0000, .none, [], false) := by decide

theorem test_memory_write_sorts :
    Memory.write (Memory.write (Memory.write [] 5 1) 2 2) 5 3 = [(2, 2), (5, 3)] ∧
    Memory.wf [(2, 2), (5, 3)] = true ∧ Memory.wf [(5, 3), (2, 2)] = false ∧ Memory.wf [(5, 3), (5, 3)] = false := by
  decide

/-! Witnesses: the hypotheses of each obligation that has any can be met together. -/

theorem witness_holdsMessage (p : BitVec 4) : (abc p).HoldsMessage [0x61, 0x62, 0x63] :=
  { lengthWritten := rfl, lengthIs := rfl, fits := by decide +revert,
    bytesAre := by
      have read : ∀ i (hi : i < 3), Memory.read [(0, 0x61), (1, 0x62), (2, 0x63)] i = some [0x61#8, 0x62#8, 0x63#8][i] := by
        decide
      exact read }

theorem witness_decodeAndEncodeAgree :
    decode .cmd8 [0xFF, 0x0A] = .ok (.start 127, [0x0A]) ∧ decode .phase4 [0x0F] = .ok (.fault, []) ∧
    decode .phase4 [0x10] = .error (.phaseTooWide 0x10) := ⟨rfl, rfl, rfl⟩

theorem witness_stepRunsTheDecodedOperation :
    decode .phase4 [(atPhase phaseIdle).phase.setWidth 8] = .ok (.idle, []) ∧ (atPhase phaseIdle).script = [] ∧
    decode .phase4 [(withMove .tick phaseFault).phase.setWidth 8] = .ok (.fault, []) ∧
    (withMove .tick phaseFault).script = [.tick] ∧
    decode .phase4 [(withMove .wait phaseFormat).phase.setWidth 8] = .ok (.format, []) ∧
    (withMove .wait phaseFormat).script = [.wait] ∧ (withMove .wait phaseFormat).busy = true ∧
    decode .cmd8 [0xFF] = .ok (.start 127, []) ∧
    (withMove (.writeReg 3 (0xFF#8).toNat) phaseIdle).script = [.writeReg 3 (0xFF#8).toNat] :=
  ⟨rfl, rfl, rfl, rfl, rfl, rfl, rfl, rfl, rfl⟩

theorem witness_resetLeavesIdle : (withMove .reset phaseFault).script = .reset :: [] := rfl

theorem witness_rotateLeftIsCircular : 0 % 32 = 0 ∧ 32 % 32 = 0 ∧ 1 % 32 ≠ 0 ∧ 31 % 32 ≠ 0 ∧ 63 % 32 ≠ 0 := by decide

theorem witness_stagesChooseMixAndConstant :
    (0 < 20 ∧ 19 < 20) ∧ (20 ≤ 20 ∧ 20 < 40) ∧ (20 ≤ 39 ∧ 39 < 40) ∧ (60 ≤ 60 ∧ 60 < 80) ∧ (60 ≤ 79 ∧ 79 < 80) ∧
    (40 ≤ 40 ∧ 40 < 60) ∧ (40 ≤ 59 ∧ 59 < 60) := by decide

theorem witness_zeroFill :
    (0 + 1 + 55) % 64 = 56 ∧ blockCount 55 = 1 ∧ 55 ≤ 55 ∧ blockCount 56 = 2 ∧ (56 ≤ 56 ∧ 56 ≤ 119) ∧
    blockCount 119 = 2 ∧ 119 % 64 ≤ 55 ∧ 119 % 64 = 55 ∧ 56 ≤ 120 % 64 ∧ 120 % 64 = 56 := by decide

theorem witness_paddedStreamHasFourFields :
    0 < [0x61#8].length ∧ 1 < 2 ∧ 55 + 8 < 1 + 1 + zeroFill 1 + 8 ∧ 7 < 8 := by decide

theorem witness_padIsInjective :
    [0x61#8].length < 2 ^ 61 ∧ [0x61#8].length < 2 ^ 61 ∧ pad [0x61] = pad [0x61] := ⟨by decide, by decide, rfl⟩

theorem witness_blocksCover : 0 < blockCount 0 ∧ 1 < blockCount 56 := by decide

theorem witness_fetchFillsTheBlock :
    (∀ i, i < 64 → 64 * (abc phaseFetch).kblk + i < (abc phaseFetch).msglen →
      64 * (abc phaseFetch).kblk + i < (abc phaseFetch).cfg.msgCap) ∧
    (∀ i, i < 64 → 64 * (abc phaseFetch).kblk + i < (abc phaseFetch).msglen →
      Memory.read (abc phaseFetch).mem (64 * (abc phaseFetch).kblk + i) ≠ none) ∧
    (64 * 0 + 2 < (abc phaseFetch).msglen ∧ 64 * 0 + 3 = (abc phaseFetch).msglen ∧
      (abc phaseFetch).msglen < 64 * 0 + 4 ∧ 64 * 0 + 55 + 8 < 64 * (abc phaseFetch).nblk ∧
      64 * (abc phaseFetch).nblk ≤ 64 * 0 + 56 + 8 ∧ 64 * 0 + 63 < 64 * (abc phaseFetch).nblk) := by decide

theorem witness_fetchRaisesUninit :
    (∀ i, i < 64 → 64 * ({ abc phaseFetch with mem := [] }).kblk + i < ({ abc phaseFetch with mem := [] }).msglen →
      64 * ({ abc phaseFetch with mem := [] }).kblk + i < ({ abc phaseFetch with mem := [] }).cfg.msgCap) ∧
    ∃ i, i < 64 ∧ 64 * ({ abc phaseFetch with mem := [] }).kblk + i < ({ abc phaseFetch with mem := [] }).msglen ∧
      Memory.read ({ abc phaseFetch with mem := [] }).mem (64 * ({ abc phaseFetch with mem := [] }).kblk + i) = none :=
  ⟨by decide, 2, by decide, by decide, rfl⟩

theorem witness_fetchStopsBeyondMessageMemory :
    2 < 64 ∧ 64 * 0 + 2 < (abc phaseFetch).msglen ∧
      ({ abc phaseFetch with cfg := ⟨2, 64⟩ }).cfg.msgCap ≤ 64 * 0 + 2 := by decide

theorem witness_fetchTakesTheBlock :
    (abc phaseFetch).HoldsMessage [0x61, 0x62, 0x63] ∧ (abc phaseFetch).nblk = blockCount 3 ∧
    (abc phaseFetch).len64 = bitLength 3 ∧ (abc phaseFetch).kblk < (abc phaseFetch).nblk :=
  ⟨witness_holdsMessage _, by decide, by decide, by decide⟩

theorem witness_scheduleDependsOnBlockAlone : (abc phaseDecode).blk = beforeFold.blk := rfl

theorem witness_roundClauses :
    beforeFold.t.val = 79 ∧ (79 : Fin 80).val = ({ beforeFold with t := 78 }).t.val + 1 ∧
    (1 : Fin 80).val = beforeRound0.t.val + 1 := by decide

theorem witness_foldClauses :
    beforeFold.kblk + 1 = beforeFold.nblk ∧ ({ beforeFold with nblk := 2 }).kblk + 1 ≠ 2 := by decide

theorem witness_reservedPhase :
    11 ≤ (atPhase 11).phase.toNat ∧ (atPhase 14).phase.toNat ≤ 14 ∧ (atPhase 11).err = .none ∧
    (atPhase 11).script = [] := by decide

theorem witness_startCases :
    11 ≤ (atPhase 11).phase.toNat ∧ 11 ≤ (atPhase 14).phase.toNat ∧ 11 ≤ (atPhase phaseFault).phase.toNat ∧
    (1 ≤ (atPhase phaseInit).phase.toNat ∧ (atPhase phaseFormat).phase.toNat ≤ 9) ∧
    ((atPhase phaseIdle).phase = phaseIdle ∧ (atPhase phaseIdle).msglenWritten = false) ∧
    ((abc phaseDone).phase = phaseDone ∧ (abc phaseDone).msglenWritten = true ∧
      ({ abc phaseDone with cfg := ⟨2, 64⟩ }).cfg.msgCap < (abc phaseDone).msglen ∧
      (abc phaseDone).msglen ≤ ({ abc phaseDone with cfg := ⟨3, 64⟩ }).cfg.msgCap) := by decide

theorem witness_hostWriteMsgCases :
    (withMove (.writeMsg 65535 0) phaseIdle).script = [.writeMsg 65535 0] ∧
    11 ≤ (withMove (.writeMsg 0 0) phaseFault).phase.toNat ∧
    (withMove (.writeMsg 0 0) 11).script = [.writeMsg 0 0] ∧ 11 ≤ (withMove (.writeMsg 0 0) 11).phase.toNat ∧
    11 ≤ (withMove (.writeMsg 0 0) 14).phase.toNat ∧
    (1 ≤ (withMove (.writeMsg 0 0) phaseInit).phase.toNat ∧ (withMove (.writeMsg 0 0) phaseFormat).phase.toNat ≤ 9) ∧
    (withMove (.writeMsg 0 0) phaseDone).phase = phaseDone ∧
    State.reset.cfg.msgCap ≤ 65536 ∧ 65535 < State.reset.cfg.msgCap := by decide

theorem witness_hostWriteLenCases :
    (withMove (.writeReg 2 (2 ^ 64 - 1)) phaseIdle).script = [.writeReg 2 (2 ^ 64 - 1)] ∧
    2 ^ 64 - 1 < 2 ^ State.reset.cfg.lenBits ∧ 11 ≤ (withMove (.writeReg 2 0) 11).phase.toNat ∧
    11 ≤ (withMove (.writeReg 2 0) 14).phase.toNat ∧ (withMove (.writeReg 2 0) phaseDone).phase = phaseDone ∧
    1 ≤ (withMove (.writeReg 2 0) phaseInit).phase.toNat ∧ (withMove (.writeReg 2 0) phaseInit).phase.toNat ≤ 9 := by
  decide

theorem witness_hostReads :
    (withMove (.readReg 0) phaseFault).script = [.readReg 0] ∧ (withMove (.readReg 1) 11).script = [.readReg 1] ∧
    (withMove (.readReg 2) phaseIdle).script = [.readReg 2] ∧ (withMove (.readReg 2) phaseIdle).msglenWritten = false ∧
    (abc phaseIdle).msglenWritten = true ∧
    (withMove (.readReg 8) phaseDone).script = [.readReg (4 + (4 : Fin 5).val)] ∧
    (withMove (.readReg 55) phaseDone).script = [.readReg (16 + (39 : Fin 40).val)] ∧
    (withMove (.readReg 55) phaseDone).phase = phaseDone := by decide

theorem witness_illegalHostAccesses :
    (9 ≤ 9 ∧ 15 ≤ 15 ∧ 56 ≤ 56) ∧ (withMove (.readReg 15) phaseIdle).script = [.readReg 15] ∧
    (withMove (.writeReg 56 0) phaseIdle).script = [.writeReg 56 0] ∧
    (withMove (.writeReg 1 0) phaseIdle).script = [.writeReg 1 0] ∧
    (withMove (.readReg 3) phaseIdle).script = [.readReg 3] ∧ (withMove (.readMsg 0) phaseIdle).script = [.readMsg 0] ∧
    (withMove (.writeReg 2 (2 ^ 64)) phaseIdle).script = [.writeReg 2 (2 ^ 64)] ∧ 2 ^ State.reset.cfg.lenBits ≤ 2 ^ 64 ∧
    (withMove (.writeReg 3 256) phaseIdle).script = [.writeReg 3 256] ∧ 256 ≤ 256 := by decide

theorem witness_faultIsTerminal :
    (withMove (.writeMsg 0 0) phaseFault).phase = phaseFault ∧
    (withMove (.writeMsg 0 0) phaseFault).script.head? ≠ some .reset ∧
    (answer (step (withMove (.writeMsg 0 0) phaseFault))).isSome = true := by decide

theorem witness_inputsFrozenWhileBusy :
    (withMove (.writeMsg 0 0) phaseInit).busy = true ∧ (withMove (.writeMsg 0 0) phaseInit).script.head? ≠ some .reset ∧
    (answer (step (withMove (.writeMsg 0 0) phaseInit))).isSome = true := by decide

theorem witness_outputsFrozenWhileDone :
    (withMove (.writeReg 3 1) phaseDone).phase = phaseDone ∧
    (withMove (.writeReg 3 1) phaseDone).script.head? ≠ some .reset ∧
    (answer (step (withMove (.writeReg 3 1) phaseDone))).isSome = true := by decide

theorem witness_registersChangeOnlyByTheirWriters :
    exec .init State.reset = .next ({ State.reset with h := hInit, phase := phasePad }) := rfl

theorem witness_hostTraffic :
    exec .loadw (inited phaseLoadw) = .next ({ inited phaseLoadw with
      a := 0x67452301, b := 0xEFCDAB89, c := 0x98BADCFE, d := 0x10325476, e := 0xC3D2E1F0, t := 0, phase := phaseRound }) :=
  rfl

theorem witness_phasesFollowTheTable :
    (∀ p, (atPhase p).script = [] ∧ (atPhase p).phase = p) ∧
    ([phaseIdle, phaseInit, phasePad, phaseFetch, phaseDecode, phaseLoadw, phaseRound, phaseFold, phaseFormat, phaseDone,
      phaseFault].all fun p => (answer (step (atPhase p))).isSome) = true ∧
    (atPhase phaseRound).t.val < 79 ∧ beforeFold.t.val = 79 ∧
    ({ beforeFold with nblk := 2 }).kblk + 1 < 2 ∧ beforeFold.kblk + 1 = beforeFold.nblk :=
  ⟨fun _ => ⟨rfl, rfl⟩, by decide +kernel, by decide, by decide, by decide, by decide⟩

theorem witness_onlyFetchCanFault :
    (atPhase phaseInit).busy = true ∧ (atPhase phaseInit).phase ≠ phaseFetch ∧ (atPhase phaseInit).script = [] ∧
    (atPhase phaseFormat).busy = true ∧ (atPhase phaseFormat).phase ≠ phaseFetch := by decide

theorem witness_carefulHost :
    (withMove (.writeReg 3 0) phaseInit).script.head? = some (.writeReg 3 0) ∧
    HostMove.respectsBusy (withMove (.writeReg 3 0) phaseInit) (.writeReg 3 0) = true ∧
    (answer (step (withMove (.writeReg 3 0) phaseInit))).isSome = true ∧
    HostMove.respectsBusy (withMove (.writeMsg 0 0) phaseIdle) (.writeMsg 0 0) = true ∧
    HostMove.respectsBusy (withMove (.writeReg 3 1) phaseInit) (.writeReg 3 1) = false := by decide

/-- A state in the middle of a run that meets the invariant. -/
theorem witness_inv (p : BitVec 4) (hp : p = phaseInit ∨ p = phaseFetch) : (abc p).Inv := by
  rcases hp with rfl | rfl <;>
    exact
      { memCanonical := by decide, memInside := by decide, cfgLegal := by decide, lengthInWidth := by decide
        phaseNamed := by decide, errInFault := by decide, errNamed := by decide, blockInRange := by decide
        lengthAccepted := by decide, padderSet := by decide, roundsOver := by decide, blocksOver := by decide }

theorem witness_everyStepKeepsTheInvariant :
    (abc phaseInit).Inv ∧ step (abc phaseInit) = .next ({ abc phaseInit with h := hInit, phase := phasePad }) :=
  ⟨witness_inv _ (.inl rfl), rfl⟩

theorem witness_eightyTwoSteps : (abc phaseLoadw).phase = phaseLoadw ∧ (abc phaseLoadw).script = [] ∧
    (abc phaseLoadw).kblk + 1 = (abc phaseLoadw).nblk ∧ ({ abc phaseLoadw with nblk := 2 }).kblk + 1 ≠ 2 := by decide

theorem witness_blockPass :
    (abc phaseFetch).HoldsMessage [0x61, 0x62, 0x63] ∧ (abc phaseFetch).nblk = blockCount 3 ∧
    (abc phaseFetch).len64 = bitLength 3 ∧ (abc phaseFetch).kblk < (abc phaseFetch).nblk ∧
    (abc phaseFetch).phase = phaseFetch ∧ (abc phaseFetch).script = [] :=
  ⟨witness_holdsMessage _, by decide, by decide, by decide, rfl, rfl⟩

/-- 56 bytes of 0x61 in place, a message of two Blocks, at its first FETCH (spec/95 section 3.2). -/
def twoBlocks : State :=
  { atPhase phaseFetch with
    mem := (List.range 56).map fun addr => (addr, 0x61), msglen := 56, msglenWritten := true, nblk := 2, len64 := 0x1C0 }

theorem witness_blockPass_not_last :
    twoBlocks.HoldsMessage (List.replicate 56 0x61) ∧ twoBlocks.nblk = blockCount (List.replicate 56 0x61#8).length ∧
    twoBlocks.len64 = bitLength (List.replicate 56 0x61#8).length ∧ twoBlocks.kblk < twoBlocks.nblk ∧
    twoBlocks.phase = phaseFetch ∧ twoBlocks.script = [] ∧ twoBlocks.kblk + 1 ≠ twoBlocks.nblk :=
  ⟨⟨rfl, by decide, by decide, by decide +kernel⟩, by decide, by decide, by decide, rfl, rfl, by decide⟩

/-- A message in place, the host about to write CMD. -/
def starting (v : Nat) (p : BitVec 4) : State := { abc p with script := [.writeReg 3 v] }

theorem witness_starting (v : Nat) (p : BitVec 4) : (starting v p).HoldsMessage [0x61, 0x62, 0x63] :=
  let held := witness_holdsMessage p
  ⟨held.lengthWritten, held.lengthIs, held.fits, held.bytesAre⟩

theorem witness_runComputesTheDigest :
    (starting 255 phaseDone).phase = phaseDone ∧ (starting 255 phaseDone).HoldsMessage [0x61, 0x62, 0x63] ∧
    255 < 256 ∧ 255 % 2 = 1 ∧ (starting 255 phaseDone).script = [.writeReg 3 255] ∧ 0 < blockCount 3 :=
  ⟨rfl, witness_starting _ _, by decide, by decide, rfl, by decide⟩

theorem witness_runEndsWithinBound :
    (abc phaseFetch).Inv ∧ (abc phaseFetch).busy = true ∧ (abc phaseFetch).script = [] :=
  ⟨witness_inv _ (.inr rfl), by decide, rfl⟩

/-- "xyz" in place with other accumulators: the same length as "abc", other data. -/
def xyz (p : BitVec 4) : State := { inited p with mem := [(0, 0x78), (1, 0x79), (2, 0x7A)] }

theorem witness_controlDependsOnLengthOnly :
    (abc phaseFetch).HoldsMessage [0x61, 0x62, 0x63] ∧ (xyz phaseFetch).HoldsMessage [0x78, 0x79, 0x7A] ∧
    [0x61#8, 0x62, 0x63].length = [0x78#8, 0x79, 0x7A].length ∧
    (abc phaseFetch).script = [] ∧ (xyz phaseFetch).script = [] ∧ (abc phaseFetch).phase = (xyz phaseFetch).phase ∧
    (abc phaseFetch).kblk = (xyz phaseFetch).kblk ∧ (abc phaseFetch).nblk = (xyz phaseFetch).nblk ∧
    (abc phaseFetch).t = (xyz phaseFetch).t :=
  ⟨witness_holdsMessage _, ⟨rfl, rfl, by decide, by decide⟩, rfl, rfl, rfl, rfl, rfl, rfl, rfl⟩

theorem witness_digestIndependentOfHistory :
    (starting 1 phaseIdle).idleOrDone = true ∧ (starting 1 phaseDone).idleOrDone = true ∧
    (starting 1 phaseIdle).HoldsMessage [0x61, 0x62, 0x63] ∧ (starting 1 phaseDone).HoldsMessage [0x61, 0x62, 0x63] ∧
    (starting 1 phaseIdle).script = [scriptStart] ∧ (starting 1 phaseDone).script = [scriptStart] :=
  ⟨by decide, by decide, witness_starting _ _, witness_starting _ _, rfl, rfl⟩

end Sys2Proof.Tests
end

