-- ==== Sys2Proof/Proofs/PaddedStream.lean ====
section
/-! PROOFS. The padded stream of a message (spec/30_encoding.md R90, R91): one lemma per field of `pad`, byte by byte, and
the value of the length field. -/

namespace Sys2Proof.Proofs.PaddedStream

open Sys2Proof.Machine

theorem zeroFill_le (L : Nat) : zeroFill L ≤ 63 := Nat.le_of_lt_succ (Nat.mod_lt _ (by decide))

/-- The length of the stream as the sum of its four fields; `pad_length` gives it in Blocks. -/
theorem pad_length_fields (m : List Byte) : (pad m).length = m.length + 1 + zeroFill m.length + 8 := by
  simp +arith [pad]

theorem pad_getElem?_message (m : List Byte) {j : Nat} (hj : j < m.length) : (pad m)[j]? = m[j]? := by
  simp [pad, List.append_assoc, List.getElem?_append_left hj]

theorem pad_getElem?_marker (m : List Byte) : (pad m)[m.length]? = some 0x80 := by
  simp [pad, List.append_assoc]

theorem pad_getElem?_zeroFill (m : List Byte) {i : Nat} (hi : i < zeroFill m.length) :
    (pad m)[m.length + 1 + i]? = some 0x00 := by
  have start : (m ++ [(0x80 : Byte)]).length = m.length + 1 := List.length_append
  rw [pad, List.append_assoc, List.getElem?_append_right (by omega), start, Nat.add_sub_cancel_left,
    List.getElem?_append_left (by simpa using hi), List.getElem?_replicate_of_lt hi]

theorem pad_getElem?_length (m : List Byte) {i : Nat} (hi : i < 8) :
    (pad m)[m.length + 1 + zeroFill m.length + i]? = some (lengthByte (bitLength m.length) i) := by
  have start : (m ++ [(0x80 : Byte)] ++ List.replicate (zeroFill m.length) 0x00).length =
      m.length + 1 + zeroFill m.length := by simp +arith
  rw [pad, List.getElem?_append_right (by omega), start, Nat.add_sub_cancel_left]
  simp [hi]

theorem bitLength_toNat (L : Nat) : (bitLength L).toNat = 8 * L % 2 ^ 64 := BitVec.toNat_ofNat _ _

/-- R91: L counts whole bytes, and the reduction modulo 2^64 keeps the low three bits. -/
theorem bitLength_toNat_mod_eight (L : Nat) : (bitLength L).toNat % 8 = 0 := by
  rw [bitLength_toNat]
  omega

/-- R91: byte i of the length field is digit 7 - i of the number in base 256. -/
theorem lengthByte_eq_ofNat (len : Len64) (i : Nat) :
    lengthByte len i = BitVec.ofNat 8 (len.toNat / 2 ^ (8 * (7 - i))) := by
  apply BitVec.eq_of_toNat_eq
  simp [lengthByte, Nat.shiftRight_eq_div_pow]

/-- Settles O9, field by field. -/
theorem paddedStreamHasFourFields : Obligations.PaddedStreamHasFourFields := by
  intro m
  refine ⟨pad_length_fields m, zeroFill_le _, fun j => pad_getElem?_message m, pad_getElem?_marker m, ?zeros, ?length,
    bitLength_toNat _, bitLength_toNat_mod_eight _⟩
  case zeros =>
    intro j afterMarker beforeLength
    obtain ⟨i, rfl⟩ := Nat.exists_eq_add_of_le (Nat.succ_le_of_lt afterMarker)
    exact pad_getElem?_zeroFill m (by omega)
  case length =>
    intro i hi
    rw [Nat.add_sub_cancel, pad_getElem?_length m hi, lengthByte_eq_ofNat, bitLength_toNat]

end Sys2Proof.Proofs.PaddedStream
end

