-- ==== Sys2Proof/Proofs/Preprocessor.lean ====
section
/-! PROOFS. The micro-operations PAD and FETCH (spec/40_preprocessor.md R126, R127): the values PAD computes, the padded
stream of a state byte by byte (R124), and which answer FETCH gives. -/

namespace Sys2Proof.Proofs.Preprocessor

open Sys2Proof.Machine Sys2Proof.Proofs.PaddedStream

section Pad

/-- R125 (b): the marker and the length field fit behind the message. -/
theorem add_nine_le_blockCount (L : Nat) : L + 9 ≤ 64 * blockCount L := by
  unfold blockCount
  omega

theorem blockCount_le_add_seventyTwo (L : Nat) : 64 * blockCount L ≤ L + 72 := by
  unfold blockCount
  omega

theorem lengthOverflows_eq_true (L : Nat) : lengthOverflows L = true ↔ 2 ^ 61 ≤ L := decide_eq_true_iff

theorem exec_pad (s : State) :
    exec .pad s = .next { s with
      nblk := blockCount s.msglen, len64 := bitLength s.msglen, lenovf := lengthOverflows s.msglen, kblk := 0,
      phase := phaseFetch } := rfl

/-- Settles O13: each value PAD writes is one of the functions of R122, R123 and R238. -/
theorem padComputesBookkeeping : Obligations.PadComputesBookkeeping := fun s =>
  ⟨blockCount s.msglen, bitLength s.msglen, lengthOverflows s.msglen, exec_pad s, rfl,
    add_nine_le_blockCount s.msglen, blockCount_le_add_seventyTwo s.msglen, bitLength_toNat s.msglen,
    lengthOverflows_eq_true s.msglen⟩

end Pad

section StreamByte
variable {s : State} {j : Nat}

theorem streamByte_message (inMessage : j < s.msglen) : streamByte s j = Memory.read s.mem j := by
  simp [streamByte, inMessage]

theorem streamByte_marker (atMarker : j = s.msglen) : streamByte s j = some 0x80 := by
  simp [streamByte, atMarker]

theorem streamByte_zeroFill (afterMarker : s.msglen < j) (beforeLength : j + 8 < 64 * s.nblk) :
    streamByte s j = some 0x00 := by
  simp [streamByte, afterMarker.not_gt, afterMarker.ne', beforeLength]

theorem streamByte_length (afterMarker : s.msglen < j) (inLength : 64 * s.nblk ≤ j + 8) (inStream : j < 64 * s.nblk) :
    streamByte s j = some (lengthByte s.len64 (j + 8 - 64 * s.nblk)) := by
  simp [streamByte, afterMarker.not_gt, afterMarker.ne', inLength.not_gt, inStream]

/-- Outside the message no byte of the stream can hold ⊥. -/
theorem streamByte_isSome (written : j < s.msglen → Memory.read s.mem j ≠ none) :
    (streamByte s j).isSome = true := by
  rw [Option.isSome_iff_ne_none]
  intro missing
  obtain ⟨inMessage, unwritten⟩ := streamByte_eq_none missing
  exact written inMessage unwritten

end StreamByte

section Fetch
variable {s : State}

theorem blockBeyondMsg_eq_false
    (inside : ∀ i, i < 64 → 64 * s.kblk + i < s.msglen → 64 * s.kblk + i < s.cfg.msgCap) :
    blockBeyondMsg s = false := by
  rw [Bool.eq_false_iff]
  intro beyond
  obtain ⟨i, hi, inMessage, outside⟩ := blockBeyondMsg_eq_true.mp beyond
  exact outside.not_gt (inside i hi inMessage)

theorem execFetch_of_streamBlock_eq_some {block : Vector Byte 64} (inside : blockBeyondMsg s = false)
    (fetched : streamBlock s = some block) : execFetch s = .next ({ s with blk := block }.goto phaseDecode) := by
  simpa [inside, fetched] using execFetch_cases s

theorem execFetch_of_streamBlock_eq_none (inside : blockBeyondMsg s = false) (missing : streamBlock s = none) :
    execFetch s = .next (s.raise .uninit) := by
  simpa [inside, missing] using execFetch_cases s

/-- Settles O14: inside MSG, FETCH answers by whether `streamBlock` gives a Block, and the Block's bytes are those of
the padded stream. -/
theorem fetchFillsTheBlockOrRaisesUninit : Obligations.FetchFillsTheBlockOrRaisesUninit := by
  intro s inside
  have notBeyond := blockBeyondMsg_eq_false inside
  refine ⟨fun written => ?fills, fun ⟨i, hi, inMessage, unwritten⟩ => ?uninit⟩
  case fills =>
    obtain ⟨block, fetched⟩ := streamBlock_isSome fun i hi => streamByte_isSome (written i hi)
    refine ⟨block, execFetch_of_streamBlock_eq_some notBeyond fetched, fun i => ?_⟩
    have byteIs : streamByte s (64 * s.kblk + i.val) = some block[i.val] := streamBlock_eq_some fetched i.val i.isLt
    refine ⟨fun inMessage => ?message, fun atMarker => ?marker, fun afterMarker beforeLength => ?zeroFill,
      fun afterMarker inLength inStream => ?length⟩
    case message => rw [← streamByte_message inMessage, byteIs]
    case marker => exact Option.some.inj (byteIs.symm.trans (streamByte_marker atMarker))
    case zeroFill => exact Option.some.inj (byteIs.symm.trans (streamByte_zeroFill afterMarker beforeLength))
    case length =>
      rw [Option.some.inj (byteIs.symm.trans (streamByte_length afterMarker inLength inStream)), lengthByte_eq_ofNat,
        BitVec.toNat_ofNat]
  case uninit =>
    have missing : streamByte s (blockIndex s i) = none := (streamByte_message inMessage).trans unwritten
    exact execFetch_of_streamBlock_eq_none notBeyond (streamBlock_eq_none hi missing)

end Fetch

end Sys2Proof.Proofs.Preprocessor
end

