-- ==== Sys2Proof/Proofs/BlockDecoder.lean ====
section
/-! PROOFS. The block-to-words decoder (spec/41_decoder.md): the value of a big-endian Word, the bytes taken back from a
Word, and from these the inverse of `decodeBlock` (R140) and the answer of DECODE (R141). -/

namespace Sys2Proof.Proofs.BlockDecoder

open Sys2Proof.Machine

section WordOfBytes

/-- A zero-extended byte keeps all its bits when it is shifted within the Word. -/
theorem zeroExtend_shiftLeft_toNat (b : Byte) {n : Nat} (hn : n ≤ 24) :
    (b.setWidth 32 <<< n).toNat = b.toNat <<< n := by
  have fits : b.toNat <<< n < 2 ^ 32 := by
    rw [Nat.shiftLeft_eq]
    calc b.toNat * 2 ^ n < 2 ^ 8 * 2 ^ n := Nat.mul_lt_mul_of_pos_right b.isLt (Nat.two_pow_pos n)
      _ ≤ 2 ^ 8 * 2 ^ 24 := Nat.mul_le_mul_left _ (Nat.pow_le_pow_right (by decide) hn)
  rw [BitVec.toNat_shiftLeft, BitVec.toNat_setWidth_of_le (by decide), Nat.mod_eq_of_lt fits]

/-- R93: the four shifted bytes have no bit in common, so that their OR is their sum. -/
theorem wordOfBytes_toNat (b0 b1 b2 b3 : Byte) :
    (wordOfBytes b0 b1 b2 b3).toNat = b0.toNat * 2 ^ 24 + b1.toNat * 2 ^ 16 + b2.toNat * 2 ^ 8 + b3.toNat := by
  have bound1 := b1.isLt
  have bound2 := b2.isLt
  have bound3 := b3.isLt
  have low : b2.toNat <<< 8 ||| b3.toNat = b2.toNat <<< 8 + b3.toNat :=
    (Nat.shiftLeft_add_eq_or_of_lt bound3 _).symm
  have middle : b1.toNat <<< 16 ||| (b2.toNat <<< 8 + b3.toNat) = b1.toNat <<< 16 + (b2.toNat <<< 8 + b3.toNat) :=
    (Nat.shiftLeft_add_eq_or_of_lt (by simp only [Nat.shiftLeft_eq]; omega) _).symm
  have high : b0.toNat <<< 24 ||| (b1.toNat <<< 16 + (b2.toNat <<< 8 + b3.toNat)) =
      b0.toNat <<< 24 + (b1.toNat <<< 16 + (b2.toNat <<< 8 + b3.toNat)) :=
    (Nat.shiftLeft_add_eq_or_of_lt (by simp only [Nat.shiftLeft_eq]; omega) _).symm
  simp (disch := decide) only [wordOfBytes, BitVec.toNat_or, zeroExtend_shiftLeft_toNat, BitVec.toNat_setWidth_of_le,
    Nat.lor_assoc, low, middle, high]
  simp only [Nat.shiftLeft_eq, Nat.add_assoc]

/-- Byte j of a Word, the most significant first: what `wordOfBytes` puts together (`wordByte_wordOfBytes`). -/
def wordByte (x : Word) (j : Nat) : Byte := x.extractLsb' (24 - 8 * j) 8

theorem wordByte_toNat (x : Word) (j : Nat) : (wordByte x j).toNat = x.toNat / 2 ^ (24 - 8 * j) % 2 ^ 8 := by
  rw [wordByte, BitVec.extractLsb'_toNat, Nat.shiftRight_eq_div_pow]

theorem wordByte_wordOfBytes (b : Fin 4 → Byte) (j : Fin 4) :
    wordByte (wordOfBytes (b 0) (b 1) (b 2) (b 3)) j = b j := by
  apply BitVec.eq_of_toNat_eq
  rw [wordByte_toNat, wordOfBytes_toNat]
  have bound0 := (b 0).isLt
  have bound1 := (b 1).isLt
  have bound2 := (b 2).isLt
  have bound3 := (b 3).isLt
  match j with
  | 0 | 1 | 2 | 3 => simp; omega

theorem wordOfBytes_wordByte (x : Word) :
    wordOfBytes (wordByte x 0) (wordByte x 1) (wordByte x 2) (wordByte x 3) = x := by
  apply BitVec.eq_of_toNat_eq
  have bound := x.isLt
  simp only [wordOfBytes_toNat, wordByte_toNat]
  omega

end WordOfBytes

section Inverse

/-- The inverse of `decodeBlock` (`encodeBlock_decodeBlock`, `decodeBlock_encodeBlock`): the bytes of sixteen Words. -/
def encodeBlock (words : Vector Word 16) : Vector Byte 64 :=
  Vector.ofFn fun n : Fin 64 => wordByte words[n.val / 4] (n.val % 4)

@[simp] theorem encodeBlock_getElem (words : Vector Word 16) (n : Nat) (hn : n < 64) :
    (encodeBlock words)[n] = wordByte words[n / 4] (n % 4) := by
  simp [encodeBlock]

theorem encodeBlock_getElem_of_word (words : Vector Word 16) {i j : Nat} (hi : i < 16) (hj : j < 4) :
    (encodeBlock words)[4 * i + j] = wordByte words[i] j := by
  have word : (4 * i + j) / 4 = i := by omega
  have byte : (4 * i + j) % 4 = j := by omega
  simp [word, byte]

theorem wordByte_decodeBlock (blk : Vector Byte 64) {i j : Nat} (hi : i < 16) (hj : j < 4) :
    wordByte (decodeBlock blk)[i] j = blk[4 * i + j] := by
  rw [decodeBlock_getElem]
  exact wordByte_wordOfBytes (fun k => blk[4 * i + k.val]) ⟨j, hj⟩

theorem encodeBlock_decodeBlock (blk : Vector Byte 64) : encodeBlock (decodeBlock blk) = blk := by
  ext n hn : 1
  rw [encodeBlock_getElem, wordByte_decodeBlock blk (by omega) (by omega)]
  simp only [Nat.div_add_mod]

theorem decodeBlock_encodeBlock (words : Vector Word 16) : decodeBlock (encodeBlock words) = words := by
  ext i hi : 1
  have byte : ∀ j (hj : j < 4), (encodeBlock words)[4 * i + j] = wordByte words[i] j :=
    fun j => encodeBlock_getElem_of_word words hi
  rw [decodeBlock_getElem, show (encodeBlock words)[4 * i] = _ from byte 0 (by decide), byte 1 (by decide),
    byte 2 (by decide), byte 3 (by decide), wordOfBytes_wordByte]

end Inverse

theorem decodeBlock_getElem_toNat (blk : Vector Byte 64) (i : Fin 16) :
    (decodeBlock blk)[i.val].toNat = blk[4 * i.val].toNat * 2 ^ 24 + blk[4 * i.val + 1].toNat * 2 ^ 16 +
      blk[4 * i.val + 2].toNat * 2 ^ 8 + blk[4 * i.val + 3].toNat := by
  rw [decodeBlock_getElem, wordOfBytes_toNat]

/-- Settles O18: `encodeBlock` is the inverse on both sides. -/
theorem decodeBlockIsBijective : Obligations.DecodeBlockIsBijective :=
  ⟨fun blk i => ⟨decodeBlock_getElem blk i.val i.isLt, decodeBlock_getElem_toNat blk i⟩,
    Function.bijective_iff_has_inverse.mpr ⟨encodeBlock, encodeBlock_decodeBlock, decodeBlock_encodeBlock⟩⟩

theorem exec_decode (s : State) :
    exec .decode s = .next { s with w := loadFirst16 (decodeBlock s.blk) s.w, phase := phaseExpand } := rfl

/-- Settles O17: the schedule buffer DECODE writes is `decodeBlock` below 16 and the old W from there on. -/
theorem decodeWritesBigEndianWords : Obligations.DecodeWritesBigEndianWords := by
  intro s
  refine ⟨loadFirst16 (decodeBlock s.blk) s.w, exec_decode s, fun i => ?low, fun i hlow => ?high⟩
  case low => rw [loadFirst16_getElem_low _ _ i.isLt, decodeBlock_getElem_toNat]
  case high => exact loadFirst16_getElem_high _ _ i.isLt hlow

end Sys2Proof.Proofs.BlockDecoder
end

