-- ==== Sys2Proof/Proofs/Expander.lean ====
section
/-! PROOFS. The schedule expander (spec/42_expander.md): `rotl` as the library's rotate, its two halves without a common bit
(R150), and the schedule of EXPAND as the one vector that keeps W[0..15] and follows the recurrence (R152, R153, R155). -/

namespace Sys2Proof.Proofs.Expander

open Sys2Proof.Machine Sys2Proof.Proofs.BlockDecoder

/-- R150: where two Words have no set bit in common, OR may be replaced by XOR. -/
theorem xor_eq_or_of_and_eq_zero {a b : Word} (disjoint : a &&& b = 0#32) : a ^^^ b = a ||| b := by
  ext i hi
  have bitsDisjoint : (a[i] && b[i]) = false := by rw [← BitVec.getElem_and, disjoint, BitVec.getElem_zero]
  rw [BitVec.getElem_xor, BitVec.getElem_or]
  revert bitsDisjoint
  cases a[i] <;> simp

section Rotate

variable (x : Word) {m n : Nat}

theorem rotl_of_mod_eq_zero (hm : n % 32 = 0) : rotl x n = x := if_pos hm

theorem rotl_of_mod_ne_zero (hm : n % 32 ≠ 0) : rotl x n = (x <<< (n % 32)) ||| (x >>> (32 - n % 32)) := if_neg hm

/-- The two formulas differ at n mod 32 = 0 only, where the right shift by 32 leaves 0 (R151 (a)). -/
theorem rotl_eq_rotateLeft (n : Nat) : rotl x n = x.rotateLeft n := by
  rw [BitVec.rotateLeft_def]
  by_cases hm : n % 32 = 0
  · simp [rotl_of_mod_eq_zero x hm, hm, BitVec.ushiftRight_eq_zero]
  · exact rotl_of_mod_ne_zero x hm

/-- R150: the bits from m up and the bits below m have none in common. -/
theorem shiftLeft_and_ushiftRight_eq_zero (hm : m ≤ 32) : (x <<< m) &&& (x >>> (32 - m)) = 0#32 := by
  ext i hi
  by_cases low : i < m
  · simp [low]
  · simp [BitVec.getLsbD_of_ge x (32 - m + i) (by omega)]

theorem rotl_toNat (hm : n % 32 ≠ 0) :
    (rotl x n).toNat = (x.toNat * 2 ^ (n % 32) % 2 ^ 32) ||| (x.toNat / 2 ^ (32 - n % 32)) := by
  rw [rotl_of_mod_ne_zero x hm, BitVec.toNat_or, BitVec.toNat_shiftLeft, BitVec.toNat_ushiftRight, Nat.shiftLeft_eq,
    Nat.shiftRight_eq_div_pow]

theorem rotl_getLsbD (n : Nat) {i : Nat} (hi : i < 32) :
    (rotl x n).getLsbD i = x.getLsbD ((i + 32 - n % 32) % 32) := by
  rw [rotl_eq_rotateLeft, BitVec.getLsbD_rotateLeft]
  by_cases low : i < n % 32
  · simp [low, show (i + 32 - n % 32) % 32 = 32 - n % 32 + i by omega]
  · simp [low, hi, show (i + 32 - n % 32) % 32 = i - n % 32 by omega]

end Rotate

/-- Settles O5: the halves of the rotate are disjoint, so that OR, XOR and addition agree on them. -/
theorem rotateLeftIsCircular : Obligations.RotateLeftIsCircular := by
  intro x n
  have disjoint := shiftLeft_and_ushiftRight_eq_zero x (Nat.mod_lt n (by decide : 32 > 0)).le
  refine ⟨rotl_of_mod_eq_zero x, fun hm => ⟨rotl_toNat x hm, ?xor, ?add⟩, fun i => rotl_getLsbD x n⟩
  case xor => rw [rotl_of_mod_ne_zero x hm, xor_eq_or_of_and_eq_zero disjoint]
  case add => rw [rotl_of_mod_ne_zero x hm, BitVec.add_eq_or_of_and_eq_zero _ _ disjoint]

section Recurrence

/-- R152: every element from 16 on is the recurrence of the elements 3, 8, 14 and 16 places below it. -/
def FollowsRecurrence (w : Vector Word 80) : Prop :=
  ∀ k (_ : 16 ≤ k) (_ : k < 80), w[k] = rotl (w[k - 3] ^^^ w[k - 8] ^^^ w[k - 14] ^^^ w[k - 16]) 1

/-- An iteration reads elements below its own index only, and no later iteration writes those again. -/
theorem foldl_expandAt_getElem (n start : Nat) (w : Vector Word 80) {k : Nat} (hlow : 16 ≤ k) (hk : k < 80)
    (hstart : start ≤ k) (hend : k < start + n) (v : Vector Word 80)
    (hv : v = (List.range' start n).foldl expandAt w) :
    v[k] = rotl (v[k - 3] ^^^ v[k - 8] ^^^ v[k - 14] ^^^ v[k - 16]) 1 := by
  induction n generalizing start w with
  | zero => omega
  | succ n ih =>
    obtain rfl | later := Nat.eq_or_lt_of_le hstart
    · have below : ∀ j (_ : j < 80), j < start → v[j] = w[j] := fun j hj hbelow =>
        hv ▸ foldl_expandAt_getElem_below (n + 1) start w hj hbelow
      rw [below (start - 3) _ (by omega), below (start - 8) _ (by omega), below (start - 14) _ (by omega),
        below (start - 16) _ (by omega), ← expandAt_getElem_same w hlow hk]
      subst hv
      exact foldl_expandAt_getElem_below n (start + 1) (expandAt w start) hk (by omega)
    · exact ih (start + 1) (expandAt w start) later (by omega) hv

theorem expandInPlace_followsRecurrence (w : Vector Word 80) : FollowsRecurrence (expandInPlace w) :=
  fun _ hlow hk => foldl_expandAt_getElem 64 16 w hlow hk hlow (by omega) _ rfl

theorem expandInPlace_getElem_low (w : Vector Word 80) {i : Nat} (hi : i < 16) : (expandInPlace w)[i] = w[i] :=
  foldl_expandAt_getElem_below 64 16 w (by omega) hi

/-- The recurrence determines a schedule from its first sixteen Words. -/
theorem FollowsRecurrence.eq_of_low_eq {v w : Vector Word 80} (hv : FollowsRecurrence v) (hw : FollowsRecurrence w)
    (low : ∀ i (_ : i < 16), v[i] = w[i]) : v = w := by
  ext k hk : 1
  induction k using Nat.strongRecOn with
  | ind k ih =>
    by_cases hlow : k < 16
    · exact low k hlow
    · rw [hv k (by omega) hk, hw k (by omega) hk, ih (k - 3) (by omega), ih (k - 8) (by omega), ih (k - 14) (by omega),
        ih (k - 16) (by omega)]

/-- What the buffer held from 16 on does not matter (R155). -/
theorem expandInPlace_loadFirst16 (first : Vector Word 16) (w : Vector Word 80) :
    expandInPlace (loadFirst16 first w) = expand first := by
  unfold expand
  refine (expandInPlace_followsRecurrence _).eq_of_low_eq (expandInPlace_followsRecurrence _) fun i hi => ?_
  rw [expandInPlace_getElem_low _ hi, expandInPlace_getElem_low _ hi, loadFirst16_getElem_low _ _ hi,
    loadFirst16_getElem_low _ _ hi]

end Recurrence

theorem exec_expand (s : State) : exec .expand s = .next { s with w := expandInPlace s.w, phase := phaseLoadw } := rfl

/-- Settles O19: the schedule buffer EXPAND writes is `expandInPlace` of the old one. -/
theorem expandFollowsTheRecurrence : Obligations.ExpandFollowsTheRecurrence := fun s =>
  ⟨expandInPlace s.w, exec_expand s, fun i => expandInPlace_getElem_low s.w i.isLt,
    fun i => expandInPlace_followsRecurrence s.w (i.val + 16) (by omega) (by omega)⟩

/-- Settles O20: DECODE overwrites W[0..15], and these alone determine what EXPAND makes of W. -/
theorem scheduleDependsOnBlockAlone : Obligations.ScheduleDependsOnBlockAlone := by
  intro s s' sameBlock
  refine ⟨_, _, _, _, exec_decode s, exec_expand _, exec_decode s', exec_expand _, ?schedule, ?same⟩
  case schedule => exact expandInPlace_loadFirst16 _ s.w
  case same => rw [expandInPlace_loadFirst16, expandInPlace_loadFirst16, sameBlock]

end Sys2Proof.Proofs.Expander
end

