-- ==== Sys2Proof/Proofs/Compression.lean ====
section
/-! PROOFS. The compression engine (spec/43_compression.md): the mixing function of each stage as formula and bit by bit
(R166), the round constants (R167), and the answers of LOADW, ROUND and FOLD (R168 to R171). -/

namespace Sys2Proof.Proofs.Compression

open Sys2Proof.Machine Sys2Proof.Proofs.Expander

section Mix

variable {t : Nat} (b c d : Word)

theorem mix_select (ht : t < 20) : mix t b c d = (b &&& c) ||| (~~~b &&& d) := if_pos ht

theorem mix_parity (ht : (20 ≤ t ∧ t < 40) ∨ (60 ≤ t ∧ t < 80)) : mix t b c d = b ^^^ c ^^^ d := by
  obtain ⟨hlow, hhigh⟩ | ⟨hlow, -⟩ := ht
  · simp [mix, hhigh, Nat.not_lt.mpr hlow]
  · simp [mix, show ¬ t < 20 by omega, show ¬ t < 40 by omega, show ¬ t < 60 by omega]

theorem mix_majority (hlow : 40 ≤ t) (hhigh : t < 60) : mix t b c d = (b &&& c) ||| (b &&& d) ||| (c &&& d) := by
  simp [mix, show ¬ t < 20 by omega, show ¬ t < 40 by omega, hhigh]

/-- R166: the two operands of the select row have no set bit in common. -/
theorem and_and_not_and_eq_zero : (b &&& c) &&& (~~~b &&& d) = 0#32 := by
  ext i hi
  cases hb : b[i] <;> simp [hb]

theorem mix_select_getLsbD (ht : t < 20) {i : Nat} (hi : i < 32) :
    (mix t b c d).getLsbD i = if b.getLsbD i then c.getLsbD i else d.getLsbD i := by
  simp only [mix_select b c d ht, BitVec.getLsbD_or, BitVec.getLsbD_and, BitVec.getLsbD_not, hi]
  cases b.getLsbD i <;> simp

theorem xor_xor_eq_true_iff (x y z : Bool) : (x ^^ y ^^ z) = true ↔ (x.toNat + y.toNat + z.toNat) % 2 = 1 := by
  revert x y z
  decide

theorem majority_eq_true_iff (x y z : Bool) :
    (x && y || x && z || y && z) = true ↔ 2 ≤ x.toNat + y.toNat + z.toNat := by
  revert x y z
  decide

theorem mix_parity_getLsbD (ht : (20 ≤ t ∧ t < 40) ∨ (60 ≤ t ∧ t < 80)) (i : Nat) :
    (mix t b c d).getLsbD i = true ↔
      ((b.getLsbD i).toNat + (c.getLsbD i).toNat + (d.getLsbD i).toNat) % 2 = 1 := by
  rw [mix_parity b c d ht, BitVec.getLsbD_xor, BitVec.getLsbD_xor, xor_xor_eq_true_iff]

theorem mix_majority_getLsbD (hlow : 40 ≤ t) (hhigh : t < 60) (i : Nat) :
    (mix t b c d).getLsbD i = true ↔
      2 ≤ (b.getLsbD i).toNat + (c.getLsbD i).toNat + (d.getLsbD i).toNat := by
  rw [mix_majority b c d hlow hhigh, BitVec.getLsbD_or, BitVec.getLsbD_or, BitVec.getLsbD_and, BitVec.getLsbD_and,
    BitVec.getLsbD_and, majority_eq_true_iff]

end Mix

/-- R167: the four constants stand in the table by stage, twenty rounds each. -/
theorem roundConst_eq_stage {t : Nat} (ht : t < 80) :
    [0x5A827999#32, 0x6ED9EBA1#32, 0x8F1BBCDC#32, 0xCA62C1D6#32][t / 20]? = some (roundConst t) := by
  unfold roundConst
  split_ifs
  · rw [show t / 20 = 0 by omega]; rfl
  · rw [show t / 20 = 1 by omega]; rfl
  · rw [show t / 20 = 2 by omega]; rfl
  · rw [show t / 20 = 3 by omega]; rfl

/-- Settles O7: the operands of the select row are disjoint, so that OR, XOR and addition agree on them; the other rows are
parity and majority of the three bits. -/
theorem stagesChooseMixAndConstant : Obligations.StagesChooseMixAndConstant := by
  refine ⟨fun t b c d => ⟨fun ht => ?select, fun ht => ?parity, fun hlow hhigh => ?majority⟩,
    fun t => roundConst_eq_stage⟩
  case select =>
    have disjoint := and_and_not_and_eq_zero b c d
    refine ⟨mix_select b c d ht, ?xor, ?add, fun i => mix_select_getLsbD b c d ht⟩
    case xor => rw [mix_select b c d ht, xor_eq_or_of_and_eq_zero disjoint]
    case add => rw [mix_select b c d ht, BitVec.add_eq_or_of_and_eq_zero _ _ disjoint]
  case parity => exact ⟨mix_parity b c d ht, fun i _ => mix_parity_getLsbD b c d ht i⟩
  case majority =>
    exact ⟨mix_majority b c d hlow hhigh, fun i _ => mix_majority_getLsbD b c d hlow hhigh i⟩

theorem exec_loadw (s : State) :
    exec .loadw s = .next ({ s.setWork (workOf s.h) with t := 0 }.goto phaseRound) := rfl

/-- Settles O22: LOADW writes the working registers `workOf` takes from H. -/
theorem loadwCopiesTheAccumulators : Obligations.LoadwCopiesTheAccumulators := exec_loadw

/-- R165, R169: the sums modulo 2^32 of `temp` are one sum modulo 2^32. -/
theorem roundTemp_toNat (t : Nat) (a b c d e w : Word) :
    (roundTemp t a b c d e w).toNat =
      ((rotl a 5).toNat + (mix t b c d).toNat + e.toNat + (roundConst t).toNat + w.toNat) % 2 ^ 32 := by
  simp only [roundTemp, BitVec.toNat_add, Nat.mod_add_mod]

/-- Settles O23: ROUND writes `roundOf` of the old working registers in both of its cases. -/
theorem roundUpdatesFromOldValues : Obligations.RoundUpdatesFromOldValues := fun s =>
  ⟨roundTemp s.t.val s.a s.b s.c s.d s.e s.w[s.t.val], roundTemp_toNat _ _ _ _ _ _ _, execRound_last,
    fun _ => execRound_inner⟩

section Fold

variable {s : State}

theorem exec_fold_last (last : s.kblk + 1 = s.nblk) :
    exec .fold s = .next { s with h := foldInto s.h s.work, phase := phaseFormat } :=
  (execFold_cases s).elim And.right fun more => absurd last more.1

theorem exec_fold_more (more : s.kblk + 1 ≠ s.nblk) :
    exec .fold s = .next { s with h := foldInto s.h s.work, kblk := s.kblk + 1, phase := phaseFetch } :=
  (execFold_cases s).elim (fun last => absurd last.1 more) And.right

end Fold

/-- Settles O24: the accumulators FOLD writes are `foldInto` of the old ones in both of its cases. -/
theorem foldAddsTheWorkingRegisters : Obligations.FoldAddsTheWorkingRegisters := fun s =>
  ⟨foldInto s.h s.work, BitVec.toNat_add s.h[0] s.a, BitVec.toNat_add s.h[1] s.b, BitVec.toNat_add s.h[2] s.c,
    BitVec.toNat_add s.h[3] s.d, BitVec.toNat_add s.h[4] s.e, exec_fold_last, exec_fold_more⟩

end Sys2Proof.Proofs.Compression
end

