-- ==== Sys2Proof/Proofs/Orchestration.lean ====
section
/-! PROOFS. The micro-operations of the sequencer itself (spec/45_orchestration.md): the answer of INIT (R201). -/

namespace Sys2Proof.Proofs.Orchestration

open Sys2Proof.Machine

theorem exec_init (s : State) : exec .init s = .next { s with h := hInit, phase := phasePad } := rfl

/-- Settles O12: the accumulators INIT writes are `hInit`, which lists the five constants of R98. -/
theorem initLoadsTheConstants : Obligations.InitLoadsTheConstants := exec_init

end Sys2Proof.Proofs.Orchestration
end

