-- ==== Sys2Proof/Proofs/Exceptions.lean ====
section
/-! PROOFS. Where the machine faults and what it does there (spec/60_exceptions.md): in FAULT every host operation but
reset is ignored (R241), and of the micro-operations only FETCH can fault (R246). -/

namespace Sys2Proof.Proofs.Exceptions

open Sys2Proof.Machine Sys2Proof.Proofs.Preprocessor Sys2Proof.Proofs.BlockDecoder Sys2Proof.Proofs.Expander
open Sys2Proof.Proofs.Compression Sys2Proof.Proofs.Orchestration

section Fault
variable {s t : State}

theorem faulted_of_phase_eq_fault (inFault : s.phase = phaseFault) : s.faulted = true := by
  rw [State.faulted, inFault]
  decide

theorem execStart_of_faulted (ignored : BitVec 7) (faulted : s.faulted = true) : execStart ignored s = .next s := by
  simpa [faulted] using execStart_cases ignored s

theorem hostWriteMsg_of_faulted (addr : Nat) (v : Byte) (faulted : s.faulted = true) : hostWriteMsg addr v s = s := by
  simpa [faulted] using hostWriteMsg_cases addr v s

theorem hostWriteLen_of_faulted (v : Nat) (faulted : s.faulted = true) : hostWriteLen v s = s := by
  simpa [faulted] using hostWriteLen_cases v s

/-- R101: a value written to CMD is START or a CMD no-operation. -/
theorem decodeCmd_cases (v : Byte) : ∃ ignored, decodeCmd v = .start ignored ∨ decodeCmd v = .cmdnop ignored := by
  unfold decodeCmd
  split
  · exact ⟨_, .inl rfl⟩
  · exact ⟨_, .inr rfl⟩

/-- Under FAULT both commands are ignored. -/
theorem exec_decodeCmd_of_faulted (v : Byte) (faulted : s.faulted = true) : exec (decodeCmd v) s = .next s := by
  obtain ⟨ignored, start | nop⟩ := decodeCmd_cases v
  · rw [start]
    exact execStart_of_faulted ignored faulted
  · rw [nop]
    rfl

/-- Under FAULT a host move but reset can only add a reply and draw free values. -/
theorem hostMove_of_faulted {move : HostMove} (faulted : s.faulted = true) (noReset : move ≠ .reset)
    (moved : hostMove move s = .next t) : t = { s with replies := t.replies, draws := t.draws } := by
  obtain ⟨reset, -⟩ | ⟨-, rfl⟩ | ⟨addr, v, -, rfl⟩ | ⟨v, -, -, rfl⟩ | ⟨reg, r, n, -, rfl⟩ := hostMove_cases moved
  · exact absurd reset noReset
  · rfl
  · rw [hostWriteMsg_of_faulted addr v faulted]
  · rw [hostWriteLen_of_faulted v faulted]
  · rfl

/-- In PHASE = FAULT an operation, the core's or the host's, changes nothing: only its move is off the script. -/
theorem exec_of_phase_eq_fault {i : Instr} {s' : State} (inFault : s.phase = phaseFault)
    (fetched : fetch s = some (i, s')) (ran : exec i s' = .next t) : t = s ∨ t = s.popMove := by
  obtain ⟨rfl, same, -⟩ | ⟨v, rest, -, -, rfl, rfl⟩ := fetch_cases fetched
  · rw [inFault] at ran
    cases ran
    exact same
  · rw [exec_decodeCmd_of_faulted (s := s.popMove) _ (faulted_of_phase_eq_fault inFault)] at ran
    cases ran
    exact .inr rfl

end Fault

/-- Settles O36: an operation changes nothing but the script, and a host move nothing but the script and what reads
return. -/
theorem faultIsTerminal : Obligations.FaultIsTerminal := by
  intro s t inFault noReset stepped
  obtain ⟨i, s', fetched, ran⟩ | ⟨move, rest, pending, -, moved⟩ := step_cases stepped
  · obtain rfl | rfl := exec_of_phase_eq_fault inFault fetched ran
    · rfl
    · rfl
  · have faulted : s.popMove.faulted = true := faulted_of_phase_eq_fault inFault
    have noResetMove : move ≠ .reset := fun reset => noReset (by rw [pending, reset]; rfl)
    rw [hostMove_of_faulted faulted noResetMove moved]
    rfl

section OnlyFetch

/-- An operation run on `s` answers a state that is not FAULT, with the ERR of `s`. -/
def AnswersWithoutFault (i : Instr) (s : State) : Prop :=
  ∃ t, exec i s = .next t ∧ t.faulted = false ∧ t.err = s.err

/-- The micro-operations of the PHASE codes under which BUSY = 1, but FETCH. -/
def busyButFetch : Instr → Bool
  | .init | .pad | .decode | .expand | .loadw | .round | .fold | .format => true
  | .idle | .fetch | .done | .reserved11 | .reserved12 | .reserved13 | .reserved14 | .fault
  | .start _ | .cmdnop _ => false

theorem busyButFetch_decodePhase :
    ∀ p : BitVec 4, phaseBusy p = true → p ≠ phaseFetch → busyButFetch (decodePhase p) = true := by
  decide

theorem exec_format (s : State) : exec .format s = .next { s with hex := formatDigest s.h, phase := phaseDone } := rfl

theorem round_answersWithoutFault (s : State) : AnswersWithoutFault .round s := by
  obtain ⟨x, next, p, ran, ⟨-, -, rfl⟩ | ⟨-, -, rfl⟩⟩ := execRound_cases s
  · exact ⟨_, ran, rfl, rfl⟩
  · exact ⟨_, ran, rfl, rfl⟩

theorem fold_answersWithoutFault (s : State) : AnswersWithoutFault .fold s := by
  by_cases last : s.kblk + 1 = s.nblk
  · exact ⟨_, exec_fold_last last, rfl, rfl⟩
  · exact ⟨_, exec_fold_more last, rfl, rfl⟩

/-- R246: each of these ends in a control transfer to a PHASE that is not FAULT, whatever the data. ROUND and FOLD
choose between two such transfers. -/
theorem answersWithoutFault_of_busyButFetch {i : Instr} (s : State) (listed : busyButFetch i = true) :
    AnswersWithoutFault i s := by
  cases i with
  | round => exact round_answersWithoutFault s
  | fold => exact fold_answersWithoutFault s
  | init => exact ⟨_, exec_init s, rfl, rfl⟩
  | pad => exact ⟨_, exec_pad s, rfl, rfl⟩
  | decode => exact ⟨_, exec_decode s, rfl, rfl⟩
  | expand => exact ⟨_, exec_expand s, rfl, rfl⟩
  | loadw => exact ⟨_, exec_loadw s, rfl, rfl⟩
  | format => exact ⟨_, exec_format s, rfl, rfl⟩
  | idle | fetch | done | reserved11 | reserved12 | reserved13 | reserved14 | fault | start _ | cmdnop _ => cases listed

end OnlyFetch

/-- Settles O42: with no host move pending the step runs the micro-operation of PHASE, which is one of those that
cannot fault. -/
theorem onlyFetchCanFault : Obligations.OnlyFetchCanFault := by
  intro s busy notFetch noMove
  rw [step_of_fetch (fetch_empty noMove)]
  exact answersWithoutFault_of_busyButFetch s (busyButFetch_decodePhase s.phase busy notFetch)

end Sys2Proof.Proofs.Exceptions
end

