-- ==== Sys2Proof/Proofs/Encoding.lean ====
section
/-! PROOFS. The decoder and the encoder (spec/30_encoding.md section 2): each undoes the other, format by format. -/

namespace Sys2Proof.Proofs.Encoding

open Sys2Proof.Machine

section Decode

/-- An operation is one byte (R108), so that the bytes after it do not matter. -/
theorem decode_cons_of_decode_singleton {f : Format} {b : Byte} {i : Instr} (rest : List Byte)
    (alone : decode f [b] = .ok (i, [])) : decode f (b :: rest) = .ok (i, rest) := by
  cases f with
  | cmd8 => cases alone; rfl
  | phase4 =>
    simp only [decode] at alone ⊢
    split at alone
    · cases alone
      exact if_pos ‹_›
    · cases alone

/-- The table's word of every operation, from its row. -/
theorem tableWord (i : Instr) : Laws.TableWord.Statement i := by
  cases i with
  | idle => exact Laws.TableWord.idle
  | init => exact Laws.TableWord.init
  | pad => exact Laws.TableWord.pad
  | fetch => exact Laws.TableWord.fetch
  | decode => exact Laws.TableWord.decode
  | expand => exact Laws.TableWord.expand
  | loadw => exact Laws.TableWord.loadw
  | round => exact Laws.TableWord.round
  | fold => exact Laws.TableWord.fold
  | format => exact Laws.TableWord.format
  | done => exact Laws.TableWord.done
  | reserved11 => exact Laws.TableWord.reserved11
  | reserved12 => exact Laws.TableWord.reserved12
  | reserved13 => exact Laws.TableWord.reserved13
  | reserved14 => exact Laws.TableWord.reserved14
  | fault => exact Laws.TableWord.fault
  | start ignored => exact Laws.TableWord.start ignored
  | cmdnop ignored => exact Laws.TableWord.cmdnop ignored

theorem decode_encode_append (i : Instr) (rest : List Byte) : decode (formatOf i) (encode i ++ rest) = .ok (i, rest) :=
  have ⟨_, _, alone⟩ := tableWord i
  decode_cons_of_decode_singleton rest alone

end Decode

section Encode

theorem formatOf_decodePhase : ∀ p : BitVec 4, formatOf (decodePhase p) = .phase4 := by decide

theorem encodeByte_decodePhase : ∀ p : BitVec 4, encodeByte (decodePhase p) = p.setWidth 8 := by decide

theorem formatOf_decodeCmd (b : Byte) : formatOf (decodeCmd b) = .cmd8 := by
  unfold decodeCmd
  split <;> rfl

theorem getLsbD_zero_ofNat (v : Nat) : (BitVec.ofNat 8 v).getLsbD 0 = decide (v % 2 = 1) := by
  rw [BitVec.getLsbD_ofNat]
  simp [Nat.testBit_zero]

theorem decodeCmd_of_even {v : Nat} (even : v % 2 = 0) : ∃ ignored, decodeCmd (BitVec.ofNat 8 v) = .cmdnop ignored :=
  ⟨_, if_neg (by rw [getLsbD_zero_ofNat]; simp [even])⟩

theorem decodeCmd_of_odd {v : Nat} (odd : v % 2 = 1) : ∃ ignored, decodeCmd (BitVec.ofNat 8 v) = .start ignored :=
  ⟨_, if_pos (by rw [getLsbD_zero_ofNat]; simp [odd])⟩

/-- R101: the bits 7:1 kept in the operation and bit 0, which says which operation it is, are the whole value. -/
theorem encodeByte_decodeCmd (b : Byte) : encodeByte (decodeCmd b) = b := by
  have parts : b.extractLsb' 1 7 ++ BitVec.ofBool (b.getLsbD 0) = b := by
    revert b; decide
  unfold decodeCmd
  cases bit : b.getLsbD 0 with
  | true => rw [bit] at parts; exact parts
  | false => rw [bit] at parts; exact parts

theorem decode_phase4_cons (b : Byte) (rest : List Byte) :
    decode .phase4 (b :: rest) =
      if b.toNat < 16 then .ok (decodePhase (b.setWidth 4), rest) else .error (.phaseTooWide b) := rfl

theorem decode_cmd8_cons (b : Byte) (rest : List Byte) : decode .cmd8 (b :: rest) = .ok (decodeCmd b, rest) := rfl

theorem setWidth_setWidth_of_lt_sixteen {b : Byte} (narrow : b.toNat < 16) : (b.setWidth 4).setWidth 8 = b :=
  BitVec.eq_of_toNat_eq (by simp [BitVec.toNat_setWidth]; omega)

theorem encode_append_of_decode {f : Format} {bytes rest : List Byte} {i : Instr}
    (decoded : decode f bytes = .ok (i, rest)) : formatOf i = f ∧ encode i ++ rest = bytes := by
  cases bytes with
  | nil => cases f <;> cases decoded
  | cons b bytes =>
    cases f with
    | cmd8 =>
      rw [decode_cmd8_cons] at decoded
      cases decoded
      exact ⟨formatOf_decodeCmd b, congrArg (· :: rest) (encodeByte_decodeCmd b)⟩
    | phase4 =>
      rw [decode_phase4_cons] at decoded
      split at decoded
      · rename_i narrow
        cases decoded
        have byteIs : encodeByte (decodePhase (b.setWidth 4)) = b :=
          (encodeByte_decodePhase _).trans (setWidth_setWidth_of_lt_sixteen narrow)
        exact ⟨formatOf_decodePhase _, congrArg (· :: rest) byteIs⟩
      · cases decoded

theorem decode_cons_eq_error_iff (f : Format) (b : Byte) (rest : List Byte) :
    (∃ e, decode f (b :: rest) = .error e) ↔ f = .phase4 ∧ 16 ≤ b.toNat := by
  cases f with
  | cmd8 => simp [decode_cmd8_cons]
  | phase4 =>
    rw [decode_phase4_cons]
    split
    · simp; omega
    · simp; omega

end Encode

/-- Settles O2: decoding after encoding, encoding after decoding, and the bytes refused. -/
theorem decodeAndEncodeAgree : Obligations.DecodeAndEncodeAgree :=
  ⟨decode_encode_append, fun _ _ _ _ => encode_append_of_decode, decode_cons_eq_error_iff⟩

/-- Settles O1: each word is a row of the table, or the refused byte. -/
theorem specWordsDecode : Obligations.SpecWordsDecode :=
  ⟨rfl, rfl, rfl, rfl, rfl, rfl, rfl, rfl, rfl, rfl, rfl, rfl, rfl, rfl, rfl, rfl⟩

end Sys2Proof.Proofs.Encoding
end

