-- ==== Sys2Proof/Proofs/StatusFlags.lean ====
section
/-! PROOFS. The status flags (spec/10_state.md R31, R33): which PHASE codes each of them stands for, and the bits of
STATUS. -/

namespace Sys2Proof.Proofs.StatusFlags

open Sys2Proof.Machine

section Phase
variable {s : State}

theorem busy_iff : s.busy = true ↔ 1 ≤ s.phase.toNat ∧ s.phase.toNat ≤ 9 := by simp [State.busy, phaseBusy]

theorem faulted_iff : s.faulted = true ↔ 11 ≤ s.phase.toNat := by simp [State.faulted, phaseFaulted]

theorem isDone_iff : s.isDone = true ↔ s.phase = phaseDone := by simp [State.isDone, phaseIsDone]

theorem busy_eq_false_of_faulted (faulted : s.faulted = true) : s.busy = false := by
  rw [faulted_iff] at faulted
  rw [Bool.eq_false_iff, ne_eq, busy_iff]
  omega

theorem faulted_eq_false_of_busy (busy : s.busy = true) : s.faulted = false := by
  rw [busy_iff] at busy
  rw [Bool.eq_false_iff, ne_eq, faulted_iff]
  omega

/-- R31: BUSY, DONE and FAULT are read off disjoint ranges of PHASE. -/
theorem isDone_eq_false_of_faulted (faulted : s.faulted = true) : s.isDone = false := by
  rw [faulted_iff] at faulted
  rw [Bool.eq_false_iff, ne_eq, isDone_iff]
  intro done
  rw [done] at faulted
  exact absurd faulted (by decide)

theorem flags_of_idle_or_done (waiting : s.phase = phaseIdle ∨ s.phase = phaseDone) :
    s.faulted = false ∧ s.busy = false := by
  unfold State.faulted State.busy
  obtain idle | done := waiting
  · rw [idle]; decide
  · rw [done]; decide

theorem phaseReserved_of_not_faulted : ∀ p : BitVec 4, phaseFaulted p = false → phaseReserved p = false := by decide

theorem ne_fault_of_not_faulted : ∀ p : BitVec 4, phaseFaulted p = false → p ≠ phaseFault := by decide

end Phase

section Status

/-- R33: the layout of STATUS, for every value of the four flags. -/
theorem status_layout : ∀ lenovf faulted done busy : Bool,
    let status : Byte :=
      0#4 ++ BitVec.ofBool lenovf ++ BitVec.ofBool faulted ++ BitVec.ofBool done ++ BitVec.ofBool busy
    status.getLsbD 0 = busy ∧ status.getLsbD 1 = done ∧ status.getLsbD 2 = faulted ∧ status.getLsbD 3 = lenovf ∧
      status.extractLsb' 4 4 = 0 := by
  decide

theorem atMostOneFlag : ∀ p : BitVec 4,
    (phaseBusy p).toNat + (phaseIsDone p).toNat + (phaseFaulted p).toNat ≤ 1 := by
  decide

theorem isDone_iff_toNat {s : State} : s.isDone = true ↔ s.phase.toNat = 10 :=
  isDone_iff.trans BitVec.toNat_inj.symm

end Status

/-- Settles O35: each bit is a flag, and each flag a range of PHASE. -/
theorem statusBitsDecodePhase : Obligations.StatusBitsDecodePhase := by
  intro s
  obtain ⟨bit0, bit1, bit2, bit3, upper⟩ := status_layout s.lenovf s.faulted s.isDone s.busy
  have busyBit : s.status.getLsbD 0 = s.busy := bit0
  have doneBit : s.status.getLsbD 1 = s.isDone := bit1
  have faultBit : s.status.getLsbD 2 = s.faulted := bit2
  rw [busyBit, doneBit, faultBit]
  exact ⟨busy_iff, isDone_iff_toNat, faulted_iff, bit3, upper, atMostOneFlag s.phase⟩

end Sys2Proof.Proofs.StatusFlags
end

