-- ==== Sys2Proof/Proofs/Invariant.lean ====
section
/-! PROOFS. The invariant (State.Inv): it holds after reset, and every operation and every host move keeps it. -/

namespace Sys2Proof.Proofs.Invariant

open Sys2Proof.Machine Sys2Proof.Proofs.BlockDecoder Sys2Proof.Proofs.Expander Sys2Proof.Proofs.Compression
open Sys2Proof.Proofs.Orchestration Sys2Proof.Proofs.Exceptions Sys2Proof.Proofs.Encoding Sys2Proof.Proofs.StatusFlags

/-- The code of a micro-operation read back from PHASE. -/
theorem eq_code_of_decodePhase : ∀ p : BitVec 4, p = (encodeByte (decodePhase p)).setWidth 4 := by decide

/-- After reset the invariant asks of the model's own fields only that the parameters are legal (log 2). -/
theorem inv_resetCore {s : State} (legal : s.cfg.legal = true) : s.resetCore.Inv where
  memCanonical := rfl
  memInside := rfl
  cfgLegal := legal
  lengthInWidth := Nat.two_pow_pos s.cfg.lenBits
  phaseNamed := rfl
  errInFault := by simp [phaseIdle, phaseFault]
  errNamed := by simp
  blockInRange := Nat.one_pos
  lengthAccepted := by simp [busy_iff, phaseIdle]
  padderSet := by simp [phaseIdle]
  roundsOver := by simp [phaseIdle, phaseFold]
  blocksOver := by simp [phaseIdle, phaseFormat]

/-- Settles O44: the state after reset is what a reset move makes of it. -/
theorem invariantHoldsAtReset : Obligations.InvariantHoldsAtReset := inv_resetCore (s := State.reset) (by decide)

section Transfer
variable {s t : State} {p : BitVec 4}

theorem inv_popMove (inv : s.Inv) : s.popMove.Inv := { inv with }

theorem err_eq_none_of_not_faulted (inv : s.Inv) (orderly : s.faulted = false) : s.err = .none :=
  inv.errInFault.mpr (ne_fault_of_not_faulted _ orderly)

theorem err_eq_none_of_busy (inv : s.Inv) (busy : s.busy = true) : s.err = .none :=
  err_eq_none_of_not_faulted inv (faulted_eq_false_of_busy busy)

/-- R236: fault entry records a code, and no clause on a working PHASE applies in FAULT. -/
theorem inv_raise {code : ErrCode} (inv : s.Inv) (isCode : code ≠ .none) (named : code ≠ .reservedPhase) :
    (s.raise code).Inv :=
  { inv with
    phaseNamed := rfl
    errInFault := by
      by_cases first : s.err = .none
      · simp [first, isCode]
      · simp [first]
    errNamed := by
      by_cases first : s.err = .none
      · simpa [first] using named
      · simpa [first] using inv.errNamed
    lengthAccepted := by simp [busy_iff, phaseFault]
    padderSet := by simp [phaseFault]
    roundsOver := by simp [phaseFault, phaseFold]
    blocksOver := by simp [phaseFault, phaseFormat] }

/-- R203: a control transfer of the core inside a run: out of a PHASE with BUSY = 1, not into FAULT, and into the PHASEs
that use the padder's registers only from another of them. -/
def runTransfer (p q : BitVec 4) : Bool :=
  phaseBusy p && !phaseFaulted q && (decide (q.toNat < 3) || decide (9 < q.toNat) || decide (3 ≤ p.toNat))

theorem runTransfer_iff {q : BitVec 4} : runTransfer p q = true ↔
    phaseBusy p = true ∧ phaseFaulted q = false ∧ (3 ≤ q.toNat → q.toNat ≤ 9 → 3 ≤ p.toNat) := by
  simp only [runTransfer, Bool.and_eq_true, Bool.or_eq_true, decide_eq_true_eq, Bool.not_eq_true', and_assoc]
  refine and_congr_right fun _ => and_congr_right fun _ => ?_
  omega

/-- Such a transfer keeps the invariant, whatever is written to the registers it makes no claim on, where T is 79 on
entry to FOLD and the Block is the last on entry to FORMAT. -/
theorem inv_of_runTransfer (inv : s.Inv)
    (frame : t = { s with h := t.h, a := t.a, b := t.b, c := t.c, d := t.d, e := t.e, w := t.w, blk := t.blk,
                          hex := t.hex, t := t.t, phase := t.phase })
    (inRun : runTransfer s.phase t.phase = true) (rounds : t.phase = phaseFold → t.t.val = 79)
    (blocks : t.phase = phaseFormat → s.kblk + 1 = s.nblk) : t.Inv := by
  obtain ⟨busy, orderly, padder⟩ := runTransfer_iff.mp inRun
  have clear := err_eq_none_of_busy inv busy
  rw [frame]
  exact
    { inv with
      phaseNamed := phaseReserved_of_not_faulted _ orderly
      errInFault := iff_of_true clear (ne_fault_of_not_faulted _ orderly)
      lengthAccepted := fun _ => inv.lengthAccepted busy
      padderSet := fun low high => inv.padderSet (padder low high) (busy_iff.mp busy).2
      roundsOver := rounds
      blocksOver := blocks }

end Transfer

section CoreStep
variable {s t : State}

/-- R126: PAD sets the registers the invariant claims to be set from FETCH on. -/
theorem inv_exec_pad (inv : s.Inv) (atPad : s.phase = phasePad) (ran : exec .pad s = .next t) : t.Inv := by
  have busy : s.busy = true := by rw [State.busy, atPad]; rfl
  have clear := err_eq_none_of_busy inv busy
  cases ran
  exact
    { inv with
      phaseNamed := rfl
      errInFault := iff_of_true clear (ne_fault_of_not_faulted phaseFetch rfl)
      blockInRange := Nat.succ_pos _
      lengthAccepted := fun _ => inv.lengthAccepted busy
      padderSet := fun _ _ => ⟨rfl, rfl, rfl⟩
      roundsOver := by simp [phaseFetch, phaseFold]
      blocksOver := by simp [phaseFetch, phaseFormat] }

theorem inv_exec_fetch (inv : s.Inv) (atFetch : s.phase = phaseFetch) (ran : exec .fetch s = .next t) : t.Inv := by
  have inRun : runTransfer s.phase phaseDecode = true := by rw [atFetch]; rfl
  obtain ⟨-, answer⟩ | ⟨-, block, -, answer⟩ | ⟨-, -, answer⟩ := execFetch_cases s
  · cases answer.symm.trans ran
  · cases answer.symm.trans ran
    exact inv_of_runTransfer inv rfl inRun nofun nofun
  · cases answer.symm.trans ran
    exact inv_raise inv nofun nofun

/-- R203: from ROUND the core goes to FOLD when T is 79 only. -/
theorem inv_exec_round (inv : s.Inv) (atRound : s.phase = phaseRound) (ran : exec .round s = .next t) : t.Inv := by
  have toFold : runTransfer s.phase phaseFold = true := by rw [atRound]; rfl
  have toRound : runTransfer s.phase phaseRound = true := by rw [atRound]; rfl
  obtain ⟨x, next, p, answer, ⟨last, rfl, rfl⟩ | ⟨-, -, rfl⟩⟩ := execRound_cases s
  · cases answer.symm.trans ran
    exact inv_of_runTransfer inv rfl toFold (fun _ => last) nofun
  · cases answer.symm.trans ran
    exact inv_of_runTransfer inv rfl toRound nofun nofun

/-- R171: from FOLD the core goes to FORMAT after the last Block only, and else KBLK stays below NBLK. -/
theorem inv_exec_fold (inv : s.Inv) (atFold : s.phase = phaseFold) (ran : exec .fold s = .next t) : t.Inv := by
  have toFormat : runTransfer s.phase phaseFormat = true := by rw [atFold]; rfl
  have toFetch : runTransfer s.phase phaseFetch = true := by rw [atFold]; rfl
  obtain ⟨last, answer⟩ | ⟨more, answer⟩ := execFold_cases s
  · cases answer.symm.trans ran
    exact inv_of_runTransfer inv rfl toFormat nofun (fun _ => last)
  · cases answer.symm.trans ran
    have notFormat : s.phase ≠ phaseFormat := by rw [atFold]; decide
    have advanced : { s with kblk := s.kblk + 1 }.Inv :=
      { inv with
        blockInRange := Nat.lt_of_le_of_ne inv.blockInRange more
        blocksOver := fun inFormat => absurd inFormat notFormat }
    exact inv_of_runTransfer advanced rfl toFetch nofun nofun

/-- A core step keeps the invariant: IDLE, DONE and FAULT change nothing, and each of the others transfers control
inside the run or enters FAULT. -/
theorem inv_exec_decodePhase (inv : s.Inv) (ran : exec (decodePhase s.phase) s = .next t) : t.Inv := by
  have code := eq_code_of_decodePhase s.phase
  have isPhase := formatOf_decodePhase s.phase
  have named := inv.phaseNamed
  generalize decodePhase s.phase = i at code isPhase ran
  have inRun : ∀ q, runTransfer ((encodeByte i).setWidth 4) q = true → runTransfer s.phase q = true :=
    fun q inTable => by rwa [code]
  cases i with
  | idle | done | fault => cases ran; exact inv
  | reserved11 | reserved12 | reserved13 | reserved14 => rw [code] at named; cases named
  | start _ | cmdnop _ => cases isPhase
  | pad => exact inv_exec_pad inv code ran
  | fetch => exact inv_exec_fetch inv code ran
  | round => exact inv_exec_round inv code ran
  | fold => exact inv_exec_fold inv code ran
  | init =>
    cases (exec_init s).symm.trans ran
    exact inv_of_runTransfer inv rfl (inRun phasePad rfl) nofun nofun
  | decode =>
    cases (exec_decode s).symm.trans ran
    exact inv_of_runTransfer inv rfl (inRun phaseExpand rfl) nofun nofun
  | expand =>
    cases (exec_expand s).symm.trans ran
    exact inv_of_runTransfer inv rfl (inRun phaseLoadw rfl) nofun nofun
  | loadw =>
    cases (exec_loadw s).symm.trans ran
    exact inv_of_runTransfer inv rfl (inRun phaseRound rfl) nofun nofun
  | format =>
    cases (exec_format s).symm.trans ran
    exact inv_of_runTransfer inv rfl (inRun phaseDone rfl) nofun nofun

end CoreStep

section HostStep
variable {s t : State} {v : Byte}

/-- R205: an accepted START finds ERR clear and an accepted length, and leads to INIT. -/
theorem inv_accepted_start (inv : s.Inv) (notFaulted : s.faulted = false) (written : s.msglenWritten = true)
    (fits : s.msglen ≤ s.cfg.msgCap) : ({ s with lenovf := false }.goto phaseInit).Inv :=
  have clear := err_eq_none_of_not_faulted inv notFaulted
  { inv with
    phaseNamed := rfl
    errInFault := iff_of_true clear (ne_fault_of_not_faulted phaseInit rfl)
    lengthAccepted := fun _ => ⟨written, fits⟩
    padderSet := by simp [phaseInit]
    roundsOver := by simp [phaseInit, phaseFold]
    blocksOver := by simp [phaseInit, phaseFormat] }

theorem inv_exec_decodeCmd (inv : s.Inv) (ran : exec (decodeCmd v) s = .next t) : t.Inv := by
  obtain ⟨ignored, start | nop⟩ := decodeCmd_cases v
  · rw [start] at ran
    obtain ⟨-, answer⟩ | ⟨-, -, answer⟩ | ⟨-, -, -, answer⟩ | ⟨-, -, -, -, answer⟩ |
      ⟨notFaulted, -, written, fits, answer⟩ := execStart_cases ignored s
    · cases answer.symm.trans ran; exact inv
    · cases answer.symm.trans ran; exact inv_raise inv nofun nofun
    · cases answer.symm.trans ran; exact inv_raise inv nofun nofun
    · cases answer.symm.trans ran; exact inv_raise inv nofun nofun
    · cases answer.symm.trans ran; exact inv_accepted_start inv notFaulted written fits
  · rw [nop] at ran
    cases ran
    exact inv

theorem inv_hostWriteMsg (addr : Nat) (inv : s.Inv) : (hostWriteMsg addr v s).Inv := by
  obtain ⟨-, answer⟩ | ⟨-, -, answer⟩ | ⟨-, -, -, answer⟩ | ⟨-, -, inside, answer⟩ := hostWriteMsg_cases addr v s
  · rwa [answer]
  · rw [answer]; exact inv_raise inv nofun nofun
  · rw [answer]; exact inv_raise inv nofun nofun
  · rw [answer]
    exact
      { inv with
        memCanonical := Memory.wf_write addr v inv.memCanonical
        memInside := Memory.within_write v inside inv.memInside }

/-- R64: MSGLEN changes in IDLE and DONE only, where nothing is claimed of the padder's registers. -/
theorem inv_hostWriteLen {n : Nat} (fits : n < 2 ^ s.cfg.lenBits) (inv : s.Inv) : (hostWriteLen n s).Inv := by
  obtain ⟨-, answer⟩ | ⟨-, -, answer⟩ | ⟨-, notBusy, answer⟩ := hostWriteLen_cases n s
  · rwa [answer]
  · rw [answer]; exact inv_raise inv nofun nofun
  · rw [answer]
    have idleOrDone : s.busy ≠ true := by rw [notBusy]; decide
    exact
      { inv with
        lengthInWidth := fits
        lengthAccepted := fun busy => absurd busy idleOrDone
        padderSet := fun low high => absurd (busy_iff.mpr ⟨by omega, high⟩) idleOrDone }

theorem inv_hostMove {move : HostMove} (inv : s.Inv) (moved : hostMove move s = .next t) : t.Inv := by
  obtain ⟨-, rfl⟩ | ⟨-, rfl⟩ | ⟨addr, v, -, rfl⟩ | ⟨v, -, fits, rfl⟩ | ⟨reg, r, n, -, rfl⟩ := hostMove_cases moved
  · exact inv_resetCore inv.cfgLegal
  · exact inv
  · exact inv_hostWriteMsg addr inv
  · exact inv_hostWriteLen fits inv
  · exact { inv with }

end HostStep

/-- Settles O45: a step is a core step, a write to CMD or another host move, and each of the three keeps the
invariant. -/
theorem everyStepKeepsTheInvariant : Obligations.EveryStepKeepsTheInvariant := by
  intro s t inv stepped
  obtain ⟨i, s', fetched, ran⟩ | ⟨move, rest, -, -, moved⟩ := step_cases stepped
  · obtain ⟨rfl, rfl | rfl, -⟩ | ⟨v, rest, -, -, rfl, rfl⟩ := fetch_cases fetched
    · exact inv_exec_decodePhase inv ran
    · exact inv_exec_decodePhase (inv_popMove inv) ran
    · exact inv_exec_decodeCmd (inv_popMove inv) ran
  · exact inv_hostMove (inv_popMove inv) moved

end Sys2Proof.Proofs.Invariant
end

