-- ==== Sys2Proof/Proofs/RotateLaws.lean ====
section
/-! PROOFS. The laws of the rotate (spec/42_expander.md R151 (d)) and, from them, the linearity of `expand` over XOR. -/

namespace Sys2Proof.Proofs.RotateLaws

open Sys2Proof.Machine Sys2Proof.Proofs.Expander

section Rotate
variable (x y : Word) (m n : Nat)

/-- R151 (d): amounts add. -/
theorem rotl_rotl : rotl (rotl x m) n = rotl x (m + n) := by
  refine BitVec.eq_of_getLsbD_eq fun i hi => ?_
  rw [rotl_getLsbD _ n hi, rotl_getLsbD x m (Nat.mod_lt _ (by decide)), rotl_getLsbD x (m + n) hi]
  congr 1
  omega

theorem rotl_xor : rotl (x ^^^ y) n = rotl x n ^^^ rotl y n := by
  refine BitVec.eq_of_getLsbD_eq fun i hi => ?_
  rw [rotl_getLsbD _ n hi, BitVec.getLsbD_xor, BitVec.getLsbD_xor, rotl_getLsbD x n hi, rotl_getLsbD y n hi]

/-- A Word with all bits alike is its own rotate. -/
theorem rotl_of_getLsbD_const {bit : Bool} (all : ∀ i, i < 32 → x.getLsbD i = bit) : rotl x n = x := by
  refine BitVec.eq_of_getLsbD_eq fun i hi => ?_
  rw [rotl_getLsbD x n hi, all i hi, all _ (Nat.mod_lt _ (by decide))]

theorem rotl_zero : rotl 0 n = 0 := rotl_of_getLsbD_const 0 n (bit := false) (by simp)

theorem rotl_allOnes : rotl 0xFFFFFFFF n = 0xFFFFFFFF := rotl_of_getLsbD_const _ n (bit := true) (by decide)

/-- Going on to the next multiple of 32 undoes a rotate. -/
theorem rotl_rotl_complement : rotl (rotl x n) (32 - n % 32) = x := by
  rw [rotl_rotl, rotl_of_mod_eq_zero]
  omega

theorem rotl_complement_rotl : rotl (rotl x (32 - n % 32)) n = x := by
  rw [rotl_rotl, Nat.add_comm, ← rotl_rotl, rotl_rotl_complement]

end Rotate

/-- Settles O6: amounts add, so that the complement modulo 32 is the inverse. -/
theorem rotateLeftLaws : Obligations.RotateLeftLaws :=
  ⟨fun n => Function.bijective_iff_has_inverse.mpr
    ⟨fun x => rotl x (32 - n % 32), fun x => rotl_rotl_complement x n, fun x => rotl_complement_rotl x n⟩,
    rotl_rotl, rotl_zero, rotl_allOnes⟩

section Linear

theorem expand_followsRecurrence (first : Vector Word 16) : FollowsRecurrence (expand first) :=
  expandInPlace_followsRecurrence _

theorem expand_getElem_low (first : Vector Word 16) {i : Nat} (hi : i < 16) : (expand first)[i] = first[i] := by
  rw [expand, expandInPlace_getElem_low _ hi, loadFirst16_getElem_low _ _ hi]

/-- The element-wise XOR of two vectors of Words. -/
def xorVector {n : Nat} (u v : Vector Word n) : Vector Word n := Vector.ofFn fun k : Fin n => u[k.val] ^^^ v[k.val]

@[simp] theorem xorVector_getElem {n : Nat} (u v : Vector Word n) (i : Nat) (hi : i < n) :
    (xorVector u v)[i] = u[i] ^^^ v[i] := by
  simp [xorVector]

/-- The recurrence is a rotate of a XOR, and the rotate distributes over XOR. -/
theorem xorVector_followsRecurrence {u v : Vector Word 80} (hu : FollowsRecurrence u) (hv : FollowsRecurrence v) :
    FollowsRecurrence (xorVector u v) := by
  intro k hlow hk
  rw [xorVector_getElem, hu k hlow hk, hv k hlow hk, ← rotl_xor]
  simp only [xorVector_getElem]
  congr 1
  ac_rfl

theorem expand_xorVector (u v : Vector Word 16) : expand (xorVector u v) = xorVector (expand u) (expand v) := by
  refine (expand_followsRecurrence _).eq_of_low_eq
    (xorVector_followsRecurrence (expand_followsRecurrence u) (expand_followsRecurrence v)) fun i hi => ?_
  simp [expand_getElem_low _ hi]

theorem zeros_followRecurrence : FollowsRecurrence (Vector.replicate 80 0) := by
  intro k hlow hk
  simp only [Vector.getElem_replicate, BitVec.xor_self]
  exact (rotl_zero 1).symm

theorem expand_zeros : expand (Vector.replicate 16 0) = Vector.replicate 80 0 := by
  refine (expand_followsRecurrence _).eq_of_low_eq zeros_followRecurrence fun i hi => ?_
  simp [expand_getElem_low _ hi]

end Linear

/-- Settles O21: a schedule that follows the recurrence is determined by its first sixteen Words, and XOR and the zero
schedule follow it. -/
theorem expandIsLinearOverXor : Obligations.ExpandIsLinearOverXor := by
  refine ⟨fun first => ⟨fun i => expand_getElem_low first i.isLt, fun i => ?recurrence⟩, fun u v i => ?linear,
    fun i => ?zero⟩
  case recurrence => exact expand_followsRecurrence first (i.val + 16) (by omega) (by omega)
  case linear => exact (congrArg (·[i.val]) (expand_xorVector u v)).trans (xorVector_getElem _ _ _ i.isLt)
  case zero => rw [expand_zeros, Vector.getElem_replicate]

end Sys2Proof.Proofs.RotateLaws
end

