-- ==== Sys2Proof/Proofs/PaddingLaws.lean ====
section
/-! PROOFS. The padded stream as a whole (spec/40_preprocessor.md section 1): its arithmetic (R121, R122, R129), that it
determines the message (R125 (e)), its Blocks (R128), and FETCH against it (R124, R127). -/

namespace Sys2Proof.Proofs.PaddingLaws

open Sys2Proof.Machine Sys2Proof.Proofs.PaddedStream Sys2Proof.Proofs.Preprocessor

/-- Settles O8: `zeroFill` and `blockCount` are linear arithmetic with a remainder. -/
theorem zeroFillIsLeastAndBlocksFit : Obligations.ZeroFillIsLeastAndBlocksFit := by
  intro L
  unfold zeroFill blockCount
  refine ⟨?_, ?_, fun z => ?_, ?_, ?_, ?_, ?_, ?_, ?_, ?_, ?_, ?_⟩ <;> omega

section Injective

/-- R91: the eight bytes of the length field determine it. -/
theorem len64_eq_of_lengthByte_eq {a b : Len64} (same : ∀ i, i < 8 → lengthByte a i = lengthByte b i) : a = b := by
  have digit : ∀ i, i < 8 → a.toNat / 2 ^ (8 * (7 - i)) % 256 = b.toNat / 2 ^ (8 * (7 - i)) % 256 := fun i hi => by
    have digits := congrArg BitVec.toNat (same i hi)
    rwa [lengthByte_eq_ofNat, lengthByte_eq_ofNat, BitVec.toNat_ofNat, BitVec.toNat_ofNat] at digits
  have digit0 := digit 0 (by decide)
  have digit1 := digit 1 (by decide)
  have digit2 := digit 2 (by decide)
  have digit3 := digit 3 (by decide)
  have digit4 := digit 4 (by decide)
  have digit5 := digit 5 (by decide)
  have digit6 := digit 6 (by decide)
  have digit7 := digit 7 (by decide)
  have := a.isLt
  have := b.isLt
  apply BitVec.eq_of_toNat_eq
  omega

variable {m n : List Byte}

/-- The length field is the last eight bytes, wherever the message ends. -/
theorem bitLength_eq_of_pad_eq (same : pad m = pad n) : bitLength m.length = bitLength n.length := by
  refine len64_eq_of_lengthByte_eq fun i hi => ?_
  have samePlace : m.length + 1 + zeroFill m.length = n.length + 1 + zeroFill n.length := by
    have := congrArg List.length same
    rw [pad_length_fields, pad_length_fields] at this
    omega
  have byteM := pad_getElem?_length m hi
  rw [same, samePlace, pad_getElem?_length n hi] at byteM
  exact (Option.some.inj byteM).symm

theorem bitLength_injective_below {a b : Nat} (ha : a < 2 ^ 61) (hb : b < 2 ^ 61) (same : bitLength a = bitLength b) :
    a = b := by
  have sameBits := congrArg BitVec.toNat same
  rw [bitLength_toNat, bitLength_toNat] at sameBits
  omega

theorem eq_of_pad_eq_of_length_eq (same : pad m = pad n) (sameLength : m.length = n.length) : m = n := by
  refine List.ext_getElem? fun j => ?_
  by_cases hj : j < m.length
  · rw [← pad_getElem?_message m hj, ← pad_getElem?_message n (sameLength ▸ hj), same]
  · rw [List.getElem?_eq_none (by omega), List.getElem?_eq_none (by omega)]

end Injective

/-- Settles O10: the length field gives the length, and the stream starts with the message. -/
theorem padIsInjectiveBelowTwoPow61 : Obligations.PadIsInjectiveBelowTwoPow61 := fun _ _ hm hn same =>
  eq_of_pad_eq_of_length_eq same (bitLength_injective_below hm hn (bitLength_eq_of_pad_eq same))

section Blocks
variable {stream : List Byte}

theorem getElem?_eq_blockOf {k i : Nat} (hi : i < 64) (inStream : 64 * k + i < stream.length) :
    stream[64 * k + i]? = some (blockOf stream k)[i] := by
  simp [inStream]

theorem blockOf_toList {k : Nat} (inStream : 64 * (k + 1) ≤ stream.length) :
    (blockOf stream k).toList = (stream.drop (64 * k)).take 64 := by
  refine List.ext_getElem (by simp; omega) fun i hi _ => ?_
  have hi' : i < 64 := by simpa using hi
  have within : 64 * k + i < stream.length := by omega
  simp [within]

/-- R128: the first n Blocks are the first 64 n bytes. -/
theorem flatMap_blockOf {n : Nat} (inStream : 64 * n ≤ stream.length) :
    ((List.range n).flatMap fun k => (blockOf stream k).toList) = stream.take (64 * n) := by
  induction n with
  | zero => simp
  | succ n ih =>
    rw [List.range_succ, List.flatMap_append, ih (by omega), List.flatMap_singleton, blockOf_toList inStream,
      Nat.mul_succ, List.take_add]

end Blocks

/-- Settles O11: the padded length is 64 times the Block count. -/
theorem blocksCoverThePaddedStream : Obligations.BlocksCoverThePaddedStream := by
  intro m
  refine ⟨?cover, fun k i hk => ?place⟩
  case cover => rw [flatMap_blockOf (pad_length m).ge, ← pad_length m, List.take_length]
  case place => exact getElem?_eq_blockOf i.isLt (by rw [pad_length]; omega)

section Fetch
variable {s : State} {m : List Byte}

/-- R124: the stream FETCH reads from MSG and the padder's registers is `pad m`, field by field. -/
theorem streamByte_eq_pad {j : Nat} (held : s.HoldsMessage m) (blocks : s.nblk = blockCount m.length)
    (len : s.len64 = bitLength m.length) (inStream : j < 64 * s.nblk) : streamByte s j = (pad m)[j]? := by
  have total : m.length + 1 + zeroFill m.length + 8 = 64 * s.nblk := by
    rw [blocks, ← pad_length, pad_length_fields]
  have lengthIs := held.lengthIs
  obtain inMessage | rfl | afterMarker := Nat.lt_trichotomy j m.length
  · rw [streamByte_message (lengthIs ▸ inMessage), pad_getElem?_message m inMessage, held.bytesAre j inMessage,
      List.getElem?_eq_getElem inMessage]
  · rw [streamByte_marker lengthIs.symm, pad_getElem?_marker]
  · obtain ⟨i, rfl⟩ := Nat.exists_eq_add_of_lt afterMarker
    by_cases inZeros : i < zeroFill m.length
    · rw [streamByte_zeroFill (by omega) (by omega), Nat.add_right_comm, pad_getElem?_zeroFill m inZeros]
    · obtain ⟨l, rfl⟩ := Nat.exists_eq_add_of_le (Nat.le_of_not_lt inZeros)
      have place : m.length + (zeroFill m.length + l) + 1 = m.length + 1 + zeroFill m.length + l := by omega
      have digit : m.length + 1 + zeroFill m.length + l + 8 - 64 * s.nblk = l := by omega
      rw [place, streamByte_length (by omega) (by omega) (by omega), pad_getElem?_length m (by omega), digit, len]

theorem streamBlock_eq_blockOf (held : s.HoldsMessage m) (blocks : s.nblk = blockCount m.length)
    (len : s.len64 = bitLength m.length) (inRange : s.kblk < s.nblk) :
    streamBlock s = some (blockOf (pad m) s.kblk) := by
  have byteIs : ∀ i (hi : i < 64), streamByte s (blockIndex s i) = some (blockOf (pad m) s.kblk)[i] := fun i hi => by
    rw [blockIndex, streamByte_eq_pad held blocks len (by omega)]
    exact getElem?_eq_blockOf hi (by rw [pad_length, ← blocks]; omega)
  obtain ⟨block, fetched⟩ := streamBlock_isSome fun i hi => Option.isSome_iff_exists.mpr ⟨_, byteIs i hi⟩
  refine fetched.trans (congrArg some (Vector.ext fun i hi => ?_))
  exact Option.some.inj ((streamBlock_eq_some fetched i hi).symm.trans (byteIs i hi))

theorem exec_fetch_of_streamBlock_eq_some {block : Vector Byte 64} (inside : blockBeyondMsg s = false)
    (fetched : streamBlock s = some block) : exec .fetch s = .next { s with blk := block, phase := phaseDecode } :=
  execFetch_of_streamBlock_eq_some inside fetched

/-- R61: a message in place is inside MSG. -/
theorem blockBeyondMsg_eq_false_of_fits (fits : s.msglen ≤ s.cfg.msgCap) : blockBeyondMsg s = false :=
  blockBeyondMsg_eq_false fun _ _ inMessage => Nat.lt_of_lt_of_le inMessage fits

theorem msglen_le_of_holdsMessage (held : s.HoldsMessage m) : s.msglen ≤ s.cfg.msgCap := held.lengthIs ▸ held.fits

end Fetch

/-- Settles O16: the Block FETCH takes is that of `pad m`, and it is inside MSG. -/
theorem fetchTakesTheBlockOfThePaddedMessage : Obligations.FetchTakesTheBlockOfThePaddedMessage :=
  fun _ _ held blocks len inRange =>
    exec_fetch_of_streamBlock_eq_some (blockBeyondMsg_eq_false_of_fits (msglen_le_of_holdsMessage held))
      (streamBlock_eq_blockOf held blocks len inRange)

/-- Settles O15: the stop is FETCH's first test. -/
theorem fetchStopsBeyondMessageMemory : Obligations.FetchStopsBeyondMessageMemory := by
  intro s beyond
  have outside : blockBeyondMsg s = true := blockBeyondMsg_eq_true.mpr beyond
  have stops : execFetch s = .fault .noSuchMsgAddress := by simpa [outside] using execFetch_cases s
  exact stops

end Sys2Proof.Proofs.PaddingLaws
end

