-- ==== Sys2Proof/Proofs/Formatter.lean ====
section
/-! PROOFS. The digest formatter (spec/44_formatter.md): the character of each nibble (R96, R97, R190), that the string
determines the accumulators, and the views of the digest (spec/30_encoding.md R94, R95). -/

namespace Sys2Proof.Proofs.Formatter

open Sys2Proof.Machine Sys2Proof.Proofs.Exceptions

section Nibble

theorem nibble_eq (x : Word) (j : Nat) : nibble x j = x.toNat / 2 ^ (28 - 4 * j) % 16 := by
  rw [nibble, BitVec.toNat_and, BitVec.toNat_ushiftRight, Nat.shiftRight_eq_div_pow]
  exact Nat.and_two_pow_sub_one_eq_mod _ 4

theorem nibble_lt (x : Word) (j : Nat) : nibble x j < 16 := nibble_eq x j ▸ Nat.mod_lt _ (by decide)

/-- R97: the sixteen characters (log 19). -/
theorem hexChar_eq_table : ∀ v : Fin 16,
    [0x30#8, 0x31#8, 0x32#8, 0x33#8, 0x34#8, 0x35#8, 0x36#8, 0x37#8, 0x38#8, 0x39#8, 0x41#8, 0x42#8, 0x43#8, 0x44#8,
      0x45#8, 0x46#8][v.val]? = some (hexChar v.val) := by
  decide

theorem hexChar_injective : ∀ u v : Fin 16, hexChar u.val = hexChar v.val → u = v := by decide

/-- R96: the eight nibbles of a Word determine it. -/
theorem word_eq_of_nibble_eq {x y : Word} (same : ∀ j, j < 8 → nibble x j = nibble y j) : x = y := by
  simp only [nibble_eq] at same
  have nibble0 := same 0 (by decide)
  have nibble1 := same 1 (by decide)
  have nibble2 := same 2 (by decide)
  have nibble3 := same 3 (by decide)
  have nibble4 := same 4 (by decide)
  have nibble5 := same 5 (by decide)
  have nibble6 := same 6 (by decide)
  have nibble7 := same 7 (by decide)
  have := x.isLt
  have := y.isLt
  apply BitVec.eq_of_toNat_eq
  omega

theorem formatDigest_getElem_of_word (h : Vector Word 5) {i j : Nat} (hi : i < 5) (hj : j < 8) :
    (formatDigest h)[8 * i + j] = hexChar (nibble h[i] j) := by
  have word : (8 * i + j) / 8 = i := by omega
  have place : (8 * i + j) % 8 = j := by omega
  simp [word, place]

end Nibble

/-- Settles O25: FORMAT writes `formatDigest`, whose characters are the table's. -/
theorem formatWritesUpperCaseHex : Obligations.FormatWritesUpperCaseHex := by
  intro s
  refine ⟨formatDigest s.h, exec_format s, fun i j => ?_⟩
  rw [formatDigest_getElem_of_word s.h i.isLt j.isLt, ← nibble_eq]
  exact hexChar_eq_table ⟨nibble s.h[i.val] j, nibble_lt _ _⟩

/-- Settles O26: a character determines its nibble, and eight nibbles their Word. -/
theorem formatIsInjective : Obligations.FormatIsInjective := by
  intro g h same
  ext i hi : 1
  refine word_eq_of_nibble_eq fun j hj => ?_
  have sameChar : hexChar (nibble g[i] j) = hexChar (nibble h[i] j) := by
    rw [← formatDigest_getElem_of_word g hi hj, ← formatDigest_getElem_of_word h hi hj, same]
  exact Fin.mk.inj (hexChar_injective ⟨_, nibble_lt _ _⟩ ⟨_, nibble_lt _ _⟩ sameChar)

section Views
variable (h : Vector Word 5)

theorem append_word_toNat {v : Nat} (x : BitVec v) (y : Word) : (x ++ y).toNat = x.toNat * 2 ^ 32 + y.toNat := by
  rw [BitVec.toNat_append, ← Nat.shiftLeft_add_eq_or_of_lt y.isLt, Nat.shiftLeft_eq]

theorem digestBits_toNat :
    (digestBits h).toNat =
      (((h[0].toNat * 2 ^ 32 + h[1].toNat) * 2 ^ 32 + h[2].toNat) * 2 ^ 32 + h[3].toNat) * 2 ^ 32 + h[4].toNat := by
  unfold digestBits
  iterate 4 rw [append_word_toNat]

/-- R94: H[i] stands at bits 159 - 32 i to 128 - 32 i. -/
theorem digestBits_extractLsb' (i : Fin 5) : (digestBits h).extractLsb' (128 - 32 * i.val) 32 = h[i.val] := by
  apply BitVec.eq_of_toNat_eq
  rw [BitVec.extractLsb'_toNat, Nat.shiftRight_eq_div_pow, digestBits_toNat]
  have bound0 := h[0].isLt
  have bound1 := h[1].isLt
  have bound2 := h[2].isLt
  have bound3 := h[3].isLt
  have bound4 := h[4].isLt
  match i with
  | 0 | 1 | 2 | 3 | 4 => simp; omega

/-- R95: byte n is cut from Word n / 4. -/
theorem digestByte_eq_extractLsb' (n : Fin 20) :
    digestByte h n = (h[n.val / 4]'(by omega)).extractLsb' (24 - 8 * (n.val % 4)) 8 := rfl

theorem digestByte_toNat (n : Fin 20) :
    (digestByte h n).toNat = (h[n.val / 4]'(by omega)).toNat / 2 ^ (24 - 8 * (n.val % 4)) % 2 ^ 8 := by
  rw [digestByte_eq_extractLsb', BitVec.extractLsb'_toNat, Nat.shiftRight_eq_div_pow]

theorem digestByte_eq_extractLsb'_digestBits (n : Fin 20) :
    digestByte h n = (digestBits h).extractLsb' (152 - 8 * n.val) 8 := by
  have word := digestBits_extractLsb' h ⟨n.val / 4, by omega⟩
  refine BitVec.eq_of_getLsbD_eq fun b hb => ?_
  have inWord : 24 - 8 * (n.val % 4) + b < 32 := by omega
  have place : 128 - 32 * (n.val / 4) + (24 - 8 * (n.val % 4) + b) = 152 - 8 * n.val + b := by omega
  rw [digestByte_eq_extractLsb', ← word]
  simp only [BitVec.getLsbD_extractLsb', inWord, place, decide_true, Bool.true_and]

/-- R96: the high nibble of byte n is nibble 2 n of the string. -/
theorem nibble_even (n : Fin 20) :
    nibble (h[2 * n.val / 8]'(by omega)) (2 * n.val % 8) = (digestByte h n).toNat / 16 := by
  have sameWord : 2 * n.val / 8 = n.val / 4 := by omega
  have shift : 28 - 4 * (2 * n.val % 8) = 24 - 8 * (n.val % 4) + 4 := by omega
  simp only [sameWord]
  rw [nibble_eq, digestByte_toNat, shift, pow_add, ← Nat.div_div_eq_div_mul]
  omega

theorem nibble_odd (n : Fin 20) :
    nibble (h[(2 * n.val + 1) / 8]'(by omega)) ((2 * n.val + 1) % 8) = (digestByte h n).toNat % 16 := by
  have sameWord : (2 * n.val + 1) / 8 = n.val / 4 := by omega
  have shift : 28 - 4 * ((2 * n.val + 1) % 8) = 24 - 8 * (n.val % 4) := by omega
  simp only [sameWord]
  rw [nibble_eq, digestByte_toNat, shift]
  omega

end Views

/-- Settles O27: byte n is cut from Word n / 4, and its two nibbles are nibbles 2 n and 2 n + 1 of the string. -/
theorem digestViewsAgree : Obligations.DigestViewsAgree := by
  intro h
  refine ⟨digestBits_extractLsb' h, digestByte_eq_extractLsb'_digestBits h, fun n => ⟨?high, ?low⟩⟩
  case high => rw [formatDigest_getElem, nibble_even]
  case low => rw [formatDigest_getElem, nibble_odd]

end Sys2Proof.Proofs.Formatter
end

