-- ==== Sys2Proof/Proofs/HostPort.lean ====
section
/-! PROOFS. What a step does at each of the host's moves (spec/20_memory.md R63, R64; spec/45_orchestration.md R202,
R205, R212; spec/10_state.md R33, R38): the operation it runs or the host operation it makes, and the cases of each. -/

namespace Sys2Proof.Proofs.HostPort

open Sys2Proof.Machine Sys2Proof.Proofs.Exceptions Sys2Proof.Proofs.Encoding Sys2Proof.Proofs.StatusFlags

section Step
variable {s : State} {rest : List HostMove}

theorem popMove_eq {move : HostMove} (pending : s.script = move :: rest) : s.popMove = { s with script := rest } := by
  rw [State.popMove, pending, List.tail_cons]

/-- A step with no host move pending is the operation of PHASE. -/
theorem step_of_no_move (noMove : s.script = []) : step s = exec (decodePhase s.phase) s :=
  step_of_fetch (fetch_empty noMove)

theorem step_of_tick (pending : s.script = .tick :: rest) :
    step s = exec (decodePhase s.phase) { s with script := rest } := by
  have fetched : fetch s = some (decodePhase s.phase, s.popMove) := by simp [fetch, pending]
  rw [step_of_fetch fetched, popMove_eq pending]

theorem step_of_wait (pending : s.script = .wait :: rest) (busy : s.busy = true) :
    step s = exec (decodePhase s.phase) s :=
  step_of_fetch (by simp [fetch, pending, busy])

theorem step_of_cmd {v : Nat} (fits : v < 256) (pending : s.script = .writeReg 3 v :: rest) :
    step s = exec (decodeCmd (BitVec.ofNat 8 v)) { s with script := rest } := by
  have isCmd : portReg 3 = some .cmd := rfl
  have fetched : fetch s = some (decodeCmd (BitVec.ofNat 8 v), s.popMove) := by simp [fetch, pending, isCmd, fits]
  rw [step_of_fetch fetched, popMove_eq pending]

/-- A host move that runs no operation is made on the state without it. -/
theorem step_of_hostMove {move : HostMove} (pending : s.script = move :: rest) (noOperation : fetch s = none) :
    step s = hostMove move { s with script := rest } := by
  rw [step_of_no_fetch noOperation, portStep, pending, popMove_eq pending]

theorem step_of_reset (pending : s.script = .reset :: rest) :
    step s = .next { s with script := rest }.resetCore :=
  step_of_hostMove pending (by simp [fetch, pending])

theorem step_of_writeMsg {addr : Nat} {v : Byte} (pending : s.script = .writeMsg addr v :: rest) :
    step s = .next (hostWriteMsg addr v { s with script := rest }) :=
  step_of_hostMove pending (by simp [fetch, pending])

theorem step_of_readMsg {addr : Nat} (pending : s.script = .readMsg addr :: rest) : step s = .refused .msgNotReadable :=
  step_of_hostMove pending (by simp [fetch, pending])

theorem step_of_readReg {reg : Nat} (pending : s.script = .readReg reg :: rest) :
    step s = hostReadReg reg { s with script := rest } :=
  step_of_hostMove pending (by simp [fetch, pending])

/-- A register write that is not a CMD value is the port's own. -/
theorem step_of_writeReg {reg v : Nat} (pending : s.script = .writeReg reg v :: rest)
    (notCommand : ¬ (portReg reg = some .cmd ∧ v < 256)) : step s = hostWriteReg reg v { s with script := rest } :=
  step_of_hostMove pending (by simp only [fetch, pending, if_neg notCommand])

theorem step_of_writeLen {v : Nat} (pending : s.script = .writeReg 2 v :: rest) (fits : v < 2 ^ s.cfg.lenBits) :
    step s = .next (hostWriteLen v { s with script := rest }) := by
  have isLen : portReg 2 = some .msglen := rfl
  rw [step_of_writeReg pending (by simp [isLen])]
  simp only [hostWriteReg, isLen, if_pos fits]

end Step

theorem decode_phase4_setWidth (p : BitVec 4) : decode .phase4 [p.setWidth 8] = .ok (decodePhase p, []) := by
  revert p
  decide

/-- Settles O3: the decoder reads `decodePhase` from PHASE and `decodeCmd` from the value written. -/
theorem stepRunsTheDecodedOperation : Obligations.StepRunsTheDecodedOperation := by
  refine ⟨fun s i decoded => ?core, fun s v i rest decoded pending => ?command⟩
  case core =>
    cases (decode_phase4_setWidth s.phase).symm.trans decoded
    exact ⟨step_of_no_move, fun _ => step_of_tick, fun _ => step_of_wait⟩
  case command =>
    cases decoded
    rw [step_of_cmd v.isLt pending, BitVec.ofNat_toNat, BitVec.setWidth_eq]

/-- R33: STATUS after reset reads the registers R38 gives. -/
theorem status_resetCore (s : State) : s.resetCore.status = 0 := by
  have sameFlags : s.resetCore.status = State.reset.status := rfl
  rw [sameFlags]
  decide

/-- Settles O4: `resetCore` writes the reset values and keeps the model's own fields. -/
theorem resetLeavesIdleAndNothingWritten : Obligations.ResetLeavesIdleAndNothingWritten := fun _ _ pending =>
  ⟨_, step_of_reset pending, rfl, rfl, rfl, status_resetCore _, fun _ => rfl, rfl, rfl, rfl, rfl⟩

/-- Settles O28: `noStep` and the CMD no-operation answer the state they are given (log 8). -/
theorem waitingOperationsChangeNothing : Obligations.WaitingOperationsChangeNothing := fun _ _ => ⟨rfl, rfl, rfl, rfl⟩

section Start
variable {s : State} (ignored : BitVec 7)

theorem exec_start_of_busy (busy : s.busy = true) : exec (.start ignored) s = .next (s.raise .reentry) := by
  have answer : execStart ignored s = .next (s.raise .reentry) := by
    simpa [busy, faulted_eq_false_of_busy busy] using execStart_cases ignored s
  exact answer

variable (notFaulted : s.faulted = false) (notBusy : s.busy = false)
include notFaulted notBusy

theorem exec_start_of_unwritten (unwritten : s.msglenWritten = false) :
    exec (.start ignored) s = .next (s.raise .uninit) := by
  have answer : execStart ignored s = .next (s.raise .uninit) := by
    simpa [notFaulted, notBusy, unwritten] using execStart_cases ignored s
  exact answer

theorem exec_start_of_tooLong (written : s.msglenWritten = true) (tooLong : s.cfg.msgCap < s.msglen) :
    exec (.start ignored) s = .next (s.raise .alloc) := by
  have answer : execStart ignored s = .next (s.raise .alloc) := by
    simpa [notFaulted, notBusy, written, tooLong, tooLong.not_ge] using execStart_cases ignored s
  exact answer

theorem exec_start_of_accepted (written : s.msglenWritten = true) (fits : s.msglen ≤ s.cfg.msgCap) :
    exec (.start ignored) s = .next { s with lenovf := false, phase := phaseInit } := by
  have answer : execStart ignored s = .next ({ s with lenovf := false }.goto phaseInit) := by
    simpa [notFaulted, notBusy, written, fits, fits.not_gt] using execStart_cases ignored s
  exact answer

end Start

/-- Settles O30: one lemma for each case of R205. -/
theorem startFollowsItsCases : Obligations.StartFollowsItsCases := by
  intro s ignored
  refine ⟨fun faulted => execStart_of_faulted ignored (faulted_iff.mpr faulted),
    fun low high => exec_start_of_busy ignored (busy_iff.mpr ⟨low, high⟩), fun waiting => ?waiting⟩
  obtain ⟨notFaulted, notBusy⟩ := flags_of_idle_or_done waiting
  exact ⟨exec_start_of_unwritten ignored notFaulted notBusy, exec_start_of_tooLong ignored notFaulted notBusy,
    exec_start_of_accepted ignored notFaulted notBusy⟩

section Write
variable {s : State} (addr : Nat) (v : Byte) (n : Nat)

theorem hostWriteMsg_of_busy (busy : s.busy = true) : hostWriteMsg addr v s = s.raise .inputMutated := by
  simpa [busy, faulted_eq_false_of_busy busy] using hostWriteMsg_cases addr v s

theorem hostWriteLen_of_busy (busy : s.busy = true) : hostWriteLen n s = s.raise .inputMutated := by
  simpa [busy, faulted_eq_false_of_busy busy] using hostWriteLen_cases n s

variable (waiting : s.phase = phaseIdle ∨ s.phase = phaseDone)
include waiting

theorem hostWriteMsg_of_beyond (beyond : s.cfg.msgCap ≤ addr) : hostWriteMsg addr v s = s.raise .alloc := by
  obtain ⟨notFaulted, notBusy⟩ := flags_of_idle_or_done waiting
  simpa [notFaulted, notBusy, beyond, beyond.not_gt] using hostWriteMsg_cases addr v s

theorem hostWriteMsg_of_accepted (inside : addr < s.cfg.msgCap) :
    hostWriteMsg addr v s = { s with mem := Memory.write s.mem addr v } := by
  obtain ⟨notFaulted, notBusy⟩ := flags_of_idle_or_done waiting
  simpa [notFaulted, notBusy, inside, inside.not_ge] using hostWriteMsg_cases addr v s

theorem hostWriteLen_of_accepted : hostWriteLen n s = { s with msglen := n, msglenWritten := true } := by
  obtain ⟨notFaulted, notBusy⟩ := flags_of_idle_or_done waiting
  simpa [notFaulted, notBusy] using hostWriteLen_cases n s

end Write

/-- Settles O31: one lemma for each case of R63, and the laws of a memory write. -/
theorem hostWriteMsgFollowsItsCases : Obligations.HostWriteMsgFollowsItsCases := by
  intro s addr v rest pending
  rw [step_of_writeMsg pending]
  refine ⟨fun faulted => ?faulted, fun low high => ?busy,
    fun waiting => ⟨fun beyond => ?beyond, fun inside => ?accepted⟩⟩
  case faulted => exact congrArg Host.Outcome.next (hostWriteMsg_of_faulted addr v (faulted_iff.mpr faulted))
  case busy => exact congrArg Host.Outcome.next (hostWriteMsg_of_busy addr v (busy_iff.mpr ⟨low, high⟩))
  case beyond => exact congrArg Host.Outcome.next (hostWriteMsg_of_beyond addr v waiting beyond)
  case accepted =>
    exact ⟨_, congrArg Host.Outcome.next (hostWriteMsg_of_accepted addr v waiting inside),
      Memory.read_write_same s.mem addr v, fun _ => Memory.read_write_other s.mem v⟩

/-- Settles O32: one lemma for each case of R64. -/
theorem hostWriteLenFollowsItsCases : Obligations.HostWriteLenFollowsItsCases := by
  intro s v rest pending fits
  rw [step_of_writeLen pending fits]
  refine ⟨fun faulted => ?faulted, fun low high => ?busy, fun waiting => ?accepted⟩
  case faulted => exact congrArg Host.Outcome.next (hostWriteLen_of_faulted v (faulted_iff.mpr faulted))
  case busy => exact congrArg Host.Outcome.next (hostWriteLen_of_busy v (busy_iff.mpr ⟨low, high⟩))
  case accepted => exact congrArg Host.Outcome.next (hostWriteLen_of_accepted v waiting)

section Read
variable (s : State)

theorem portReg_h : ∀ i : Fin 5, portReg (4 + i.val) = some (.h i) := by decide

theorem portReg_hex : ∀ n : Fin 40, portReg (16 + n.val) = some (.hex n) := by decide

theorem hostReadReg_h (i : Fin 5) : hostReadReg (4 + i.val) s = .next (hostReadH i s) := by
  simp only [hostReadReg, portReg_h]

theorem hostReadReg_hex (n : Fin 40) : hostReadReg (16 + n.val) s = .next (hostReadHex n s) := by
  simp only [hostReadReg, portReg_hex]

theorem hostReadLen_cases :
    (s.msglenWritten = true ∧ hostReadLen s = s.reply (.length s.msglen)) ∨
    (s.msglenWritten = false ∧ ∃ v, v < 2 ^ s.cfg.lenBits ∧ hostReadLen s = (s.reply (.length v)).draw) := by
  unfold hostReadLen
  cases s.msglenWritten with
  | true => exact .inl ⟨rfl, rfl⟩
  | false => exact .inr ⟨rfl, _, Nat.mod_lt _ (Nat.two_pow_pos _), rfl⟩

theorem hostReadH_cases (i : Fin 5) :
    (s.phase = phaseDone ∧ hostReadH i s = s.reply (.word (.h i) s.h[i.val])) ∨
    (s.phase ≠ phaseDone ∧ ∃ v, hostReadH i s = (s.reply (.word (.h i) v)).draw) := by
  unfold hostReadH
  by_cases done : s.phase = phaseDone
  · exact .inl ⟨done, if_pos (isDone_iff.mpr done)⟩
  · exact .inr ⟨done, _, if_neg (mt isDone_iff.mp done)⟩

theorem hostReadHex_cases (n : Fin 40) :
    (s.phase = phaseDone ∧ hostReadHex n s = s.reply (.byte (.hex n) s.hex[n.val])) ∨
    (s.phase ≠ phaseDone ∧ ∃ v, hostReadHex n s = (s.reply (.byte (.hex n) v)).draw) := by
  unfold hostReadHex
  by_cases done : s.phase = phaseDone
  · exact .inl ⟨done, if_pos (isDone_iff.mpr done)⟩
  · exact .inr ⟨done, _, if_neg (mt isDone_iff.mp done)⟩

end Read

/-- Settles O33: each read adds one reply, and draws a free value where its own is unspecified. -/
theorem hostReadsAnswerAndChangeNothing : Obligations.HostReadsAnswerAndChangeNothing := by
  intro s rest
  refine ⟨step_of_readReg, step_of_readReg, fun pending => ?length, fun i pending => ?accumulator,
    fun n pending => ?character⟩
  case length =>
    have served : step s = .next (hostReadLen { s with script := rest }) := step_of_readReg pending
    obtain ⟨written, answer⟩ | ⟨unwritten, v, width, answer⟩ := hostReadLen_cases { s with script := rest }
    · exact ⟨s.msglen, s.draws, served.trans (congrArg _ answer), fun _ => rfl,
        fun unwritten => absurd (written.symm.trans unwritten) nofun⟩
    · exact ⟨v, s.draws + 1, served.trans (congrArg _ answer),
        fun written => absurd (unwritten.symm.trans written) nofun, fun _ => width⟩
  case accumulator =>
    have served := (step_of_readReg pending).trans (hostReadReg_h _ i)
    obtain ⟨-, answer⟩ | ⟨notDone, v, answer⟩ := hostReadH_cases { s with script := rest } i
    · exact ⟨s.h[i.val], s.draws, served.trans (congrArg _ answer), fun _ => rfl⟩
    · exact ⟨v, s.draws + 1, served.trans (congrArg _ answer), (absurd · notDone)⟩
  case character =>
    have served := (step_of_readReg pending).trans (hostReadReg_hex _ n)
    obtain ⟨-, answer⟩ | ⟨notDone, v, answer⟩ := hostReadHex_cases { s with script := rest } n
    · exact ⟨s.hex[n.val], s.draws, served.trans (congrArg _ answer), fun _ => rfl⟩
    · exact ⟨v, s.draws + 1, served.trans (congrArg _ answer), (absurd · notDone)⟩

section Refuse
variable {s : State} {n v : Nat} {rest : List HostMove}

theorem portReg_unused (unused : (9 ≤ n ∧ n ≤ 15) ∨ 56 ≤ n) : portReg n = none := by
  unfold portReg
  split_ifs <;> first | rfl | omega

/-- R33: the registers but MSGLEN and CMD are read-only. -/
theorem portReg_readOnly (readOnly : n ≤ 1 ∨ (4 ≤ n ∧ n ≤ 8) ∨ (16 ≤ n ∧ n ≤ 55)) :
    ∃ r, portReg n = some r ∧ r ≠ .msglen ∧ r ≠ .cmd := by
  unfold portReg
  split_ifs <;> first | omega | exact ⟨_, rfl, nofun, nofun⟩

theorem hostWriteReg_readOnly {r : PortReg} (names : portReg n = some r) (notLen : r ≠ .msglen) (notCmd : r ≠ .cmd)
    (s : State) : hostWriteReg n v s = .refused (.registerReadOnly n) := by
  simp only [hostWriteReg, names]
  cases r with
  | msglen => exact absurd rfl notLen
  | cmd => exact absurd rfl notCmd
  | status | err | h _ | hex _ => rfl

end Refuse

/-- Settles O34: the register a number names decides every refusal but those of the too wide values. -/
theorem illegalHostAccessesAreRefused : Obligations.IllegalHostAccessesAreRefused := by
  intro s n v rest
  refine ⟨fun unused => ⟨fun pending => ?readUnused, fun pending => ?writeUnused⟩, fun readOnly pending => ?readOnly,
    step_of_readReg, step_of_readMsg, fun pending tooWide => ?lenTooWide, fun pending tooWide => ?cmdTooWide⟩
  case readUnused =>
    rw [step_of_readReg pending]
    simp only [hostReadReg, portReg_unused unused]
  case writeUnused =>
    rw [step_of_writeReg pending (by simp [portReg_unused unused])]
    simp only [hostWriteReg, portReg_unused unused]
  case readOnly =>
    obtain ⟨r, names, notLen, notCmd⟩ := portReg_readOnly readOnly
    rw [step_of_writeReg pending (by simp [names, notCmd]), hostWriteReg_readOnly names notLen notCmd]
  case lenTooWide =>
    have isLen : portReg 2 = some .msglen := rfl
    rw [step_of_writeReg pending (by simp [isLen])]
    simp only [hostWriteReg, isLen, if_neg tooWide.not_gt]
  case cmdTooWide =>
    have isCmd : portReg 3 = some .cmd := rfl
    rw [step_of_writeReg pending (by omega)]
    simp only [hostWriteReg, isCmd]

/-- R237: the four reserved operations are one fault entry. -/
theorem exec_reserved {i : Instr} (s : State)
    (reserved : i ∈ [Instr.reserved11, .reserved12, .reserved13, .reserved14]) :
    exec i s = .next (s.raise .reservedPhase) := by
  simp only [List.mem_cons, List.not_mem_nil, or_false] at reserved
  obtain rfl | rfl | rfl | rfl := reserved <;> rfl

theorem decodePhase_reserved : ∀ p : BitVec 4, 11 ≤ p.toNat → p.toNat ≤ 14 →
    decodePhase p ∈ [Instr.reserved11, .reserved12, .reserved13, .reserved14] := by
  decide

section Reserved
variable {s : State}

theorem status_of_faulted (faulted : s.faulted = true) :
    s.status = 0#4 ++ BitVec.ofBool s.lenovf ++ 1#1 ++ 0#1 ++ 0#1 := by
  rw [State.status, faulted, isDone_eq_false_of_faulted faulted, busy_eq_false_of_faulted faulted]
  rfl

/-- Fault entry does not change STATUS where FAULT is already shown. -/
theorem status_raise {code : ErrCode} (faulted : s.faulted = true) : (s.raise code).status = s.status := by
  rw [status_of_faulted faulted, status_of_faulted (faulted_of_phase_eq_fault rfl), State.raise_lenovf]

/-- R237: what fault entry records is what ERR has read already. -/
theorem errRead_raise_reservedPhase (reserved : phaseReserved s.phase = true) :
    (s.raise .reservedPhase).errRead = s.errRead := by
  have notReserved : phaseReserved (s.raise .reservedPhase).phase = false := rfl
  simp only [State.errRead, reserved, notReserved, State.raise_err]
  by_cases first : s.err = .none
  · simp [first]
  · simp [first]

end Reserved

/-- Settles O29: the flags of a reserved code, and that the host sees no difference at the fault entry. -/
theorem reservedPhaseIsFault : Obligations.ReservedPhaseIsFault := by
  intro s
  refine ⟨fun i => exec_reserved s, fun low high => ?flags⟩
  have reserved : phaseReserved s.phase = true := by simp [phaseReserved, low, high]
  have faulted := faulted_iff.mpr low
  refine ⟨busy_eq_false_of_faulted faulted, isDone_eq_false_of_faulted faulted, faulted, fun clear => ?read,
    fun noMove => ?step⟩
  case read => simp [State.errRead, reserved, clear, errCode]
  case step =>
    have answer := (step_of_no_move noMove).trans (exec_reserved s (decodePhase_reserved s.phase low high))
    exact ⟨_, answer, rfl, status_raise faulted, errRead_raise_reservedPhase reserved⟩

end Sys2Proof.Proofs.HostPort
end

