-- ==== Sys2Proof/Proofs/Frames.lean ====
section
/-! PROOFS. What operations and steps leave unchanged (spec/10_state.md R20, spec/20_memory.md R70, R71), where the core
goes next (spec/45_orchestration.md R203, R211), and that a careful host causes no fault of its own
(spec/70_reset_and_hazards.md R264, R265). -/

namespace Sys2Proof.Proofs.Frames

open Sys2Proof.Machine Sys2Proof.Proofs.Preprocessor Sys2Proof.Proofs.BlockDecoder Sys2Proof.Proofs.Expander
open Sys2Proof.Proofs.Compression Sys2Proof.Proofs.Orchestration Sys2Proof.Proofs.Exceptions
open Sys2Proof.Proofs.Encoding Sys2Proof.Proofs.StatusFlags Sys2Proof.Proofs.HostPort

/-- Settles O39: the answer of each operation, compared with the state it ran on. -/
theorem registersChangeOnlyByTheirWriters : Obligations.RegistersChangeOnlyByTheirWriters := by
  intro i s t ran
  cases i with
  | idle | done | fault | cmdnop _ => cases ran; simp
  | reserved11 | reserved12 | reserved13 | reserved14 => cases ran; simp
  | init => cases (exec_init s).symm.trans ran; simp
  | pad => cases (exec_pad s).symm.trans ran; simp
  | decode => cases (exec_decode s).symm.trans ran; simp
  | expand => cases (exec_expand s).symm.trans ran; simp
  | loadw => cases (exec_loadw s).symm.trans ran; simp
  | format => cases (exec_format s).symm.trans ran; simp
  | fetch =>
    obtain ⟨-, answer⟩ | ⟨-, block, -, answer⟩ | ⟨-, -, answer⟩ := execFetch_cases s
    · cases answer.symm.trans ran
    · cases answer.symm.trans ran; simp
    · cases answer.symm.trans ran; simp
  | round =>
    obtain ⟨x, next, p, answer, -⟩ := execRound_cases s
    cases answer.symm.trans ran; simp
  | fold =>
    obtain ⟨-, answer⟩ | ⟨-, answer⟩ := execFold_cases s
    · cases answer.symm.trans ran; simp
    · cases answer.symm.trans ran; simp
  | start ignored =>
    obtain ⟨-, answer⟩ | ⟨-, -, answer⟩ | ⟨-, -, -, answer⟩ | ⟨-, -, -, -, answer⟩ | ⟨-, -, -, -, answer⟩ :=
      execStart_cases ignored s
    · cases answer.symm.trans ran; simp
    · cases answer.symm.trans ran; simp
    · cases answer.symm.trans ran; simp
    · cases answer.symm.trans ran; simp
    · cases answer.symm.trans ran; simp

section Traffic
variable (s : State) (script : List HostMove) (replies : List HostReply) (draws : Nat)

/-- A state with other moves to come, replies given and free values drawn. -/
def withTraffic : State := { s with script := script, replies := replies, draws := draws }

theorem streamBlock_withTraffic : streamBlock (withTraffic s script replies draws) = streamBlock s := rfl

theorem blockBeyondMsg_withTraffic : blockBeyondMsg (withTraffic s script replies draws) = blockBeyondMsg s := rfl

end Traffic

/-- Settles O40: what an operation answers, and which of its cases it takes, never reads these fields. -/
theorem hostTrafficDoesNotReachTheCore : Obligations.HostTrafficDoesNotReachTheCore := by
  intro i s t script replies draws ran
  change exec i (withTraffic s script replies draws) = .next (withTraffic t script replies draws)
  cases i with
  | idle | done | fault | cmdnop _ => cases ran; rfl
  | reserved11 | reserved12 | reserved13 | reserved14 => cases ran; rfl
  | init => cases (exec_init s).symm.trans ran; rfl
  | pad => cases (exec_pad s).symm.trans ran; rfl
  | decode => cases (exec_decode s).symm.trans ran; rfl
  | expand => cases (exec_expand s).symm.trans ran; exact exec_expand _
  | loadw => cases (exec_loadw s).symm.trans ran; rfl
  | format => cases (exec_format s).symm.trans ran; exact exec_format _
  | fetch =>
    have sameBlock := streamBlock_withTraffic s script replies draws
    have sameBound := blockBeyondMsg_withTraffic s script replies draws
    obtain ⟨-, answer⟩ | ⟨inside, block, fetched, answer⟩ | ⟨inside, missing, answer⟩ := execFetch_cases s
    · cases answer.symm.trans ran
    · cases answer.symm.trans ran
      exact execFetch_of_streamBlock_eq_some (sameBound.trans inside) (sameBlock.trans fetched)
    · cases answer.symm.trans ran
      exact execFetch_of_streamBlock_eq_none (sameBound.trans inside) (sameBlock.trans missing)
  | round =>
    by_cases last : s.t.val = 79
    · cases (execRound_last last).symm.trans ran
      exact execRound_last (s := withTraffic s script replies draws) last
    · have next : (⟨s.t.val + 1, by omega⟩ : Fin 80).val = s.t.val + 1 := rfl
      cases (execRound_inner next).symm.trans ran
      exact execRound_inner (s := withTraffic s script replies draws) next
  | fold =>
    by_cases last : s.kblk + 1 = s.nblk
    · cases (exec_fold_last last).symm.trans ran
      exact exec_fold_last last
    · cases (exec_fold_more last).symm.trans ran
      exact exec_fold_more last
  | start ignored =>
    obtain ⟨faulted, answer⟩ | ⟨-, busy, answer⟩ | ⟨notFaulted, notBusy, unwritten, answer⟩ |
      ⟨notFaulted, notBusy, written, tooLong, answer⟩ | ⟨notFaulted, notBusy, written, fits, answer⟩ :=
      execStart_cases ignored s
    · cases answer.symm.trans ran; exact execStart_of_faulted ignored faulted
    · cases answer.symm.trans ran
      exact exec_start_of_busy ignored busy
    · cases answer.symm.trans ran
      exact exec_start_of_unwritten ignored notFaulted notBusy unwritten
    · cases answer.symm.trans ran
      exact exec_start_of_tooLong ignored notFaulted notBusy written tooLong
    · cases answer.symm.trans ran
      exact exec_start_of_accepted ignored notFaulted notBusy written fits

/-- Settles O41: each clause is the answer of one operation. -/
theorem phasesFollowTheTable : Obligations.PhasesFollowTheTable := by
  intro s t noMove stepped
  have ran : ∀ {p : BitVec 4}, s.phase = p → exec (decodePhase p) s = .next t := fun code => by
    rw [← code, ← step_of_no_move noMove, stepped]
  refine ⟨fun code => ?idle, fun code => ?init, fun code => ?pad, fun code => ?fetch, fun code => ?decode,
    fun code => ?expand, fun code => ?loadw, fun code inner => ?roundInner, fun code last => ?roundLast,
    fun code more => ?foldMore, fun code last => ?foldLast, fun code => ?format, fun code => ?done,
    fun code => ?fault⟩
  case idle => cases ran code; exact code
  case init => cases (exec_init s).symm.trans (ran code); exact ⟨rfl, rfl, rfl⟩
  case pad => cases (exec_pad s).symm.trans (ran code); exact ⟨rfl, rfl, rfl⟩
  case fetch =>
    obtain ⟨-, answer⟩ | ⟨-, block, -, answer⟩ | ⟨-, -, answer⟩ := execFetch_cases s
    · cases answer.symm.trans (ran code)
    · cases answer.symm.trans (ran code); exact ⟨.inl rfl, rfl, rfl⟩
    · cases answer.symm.trans (ran code); exact ⟨.inr rfl, rfl, rfl⟩
  case decode => cases (exec_decode s).symm.trans (ran code); exact ⟨rfl, rfl, rfl⟩
  case expand => cases (exec_expand s).symm.trans (ran code); exact ⟨rfl, rfl, rfl⟩
  case loadw => cases (exec_loadw s).symm.trans (ran code); exact ⟨rfl, rfl, rfl⟩
  case roundInner =>
    have next : (⟨s.t.val + 1, by omega⟩ : Fin 80).val = s.t.val + 1 := rfl
    cases (execRound_inner next).symm.trans (ran code); exact ⟨rfl, rfl, rfl⟩
  case roundLast => cases (execRound_last last).symm.trans (ran code); exact ⟨rfl, rfl, rfl⟩
  case foldMore => cases (exec_fold_more (by omega)).symm.trans (ran code); exact ⟨rfl, rfl, rfl⟩
  case foldLast => cases (exec_fold_last last).symm.trans (ran code); exact ⟨rfl, rfl, rfl⟩
  case format => cases (exec_format s).symm.trans (ran code); exact ⟨rfl, rfl, rfl⟩
  case done => cases ran code; exact code
  case fault => cases ran code; exact code

section Frozen
variable {s s' t : State} {i : Instr}

/-- The state an operation runs on differs from the step's by the script only. -/
theorem fetch_state (fetched : fetch s = some (i, s')) : s' = s ∨ s' = s.popMove := by
  obtain ⟨-, same, -⟩ | ⟨_, _, -, -, -, popped⟩ := fetch_cases fetched
  · exact same
  · exact .inr popped

end Frozen

/-- Settles O37: no operation writes MSG or MSGLEN, and a host write while BUSY = 1 is a fault entry. -/
theorem inputsFrozenWhileBusy : Obligations.InputsFrozenWhileBusy := by
  intro s t busy noReset stepped
  obtain ⟨i, s', fetched, ran⟩ | ⟨move, rest, pending, -, moved⟩ := step_cases stepped
  · obtain ⟨sameMem, sameLen, sameWritten, -⟩ := registersChangeOnlyByTheirWriters i s' t ran
    obtain rfl | rfl := fetch_state fetched
    · exact ⟨sameMem, sameLen, sameWritten⟩
    · exact ⟨sameMem, sameLen, sameWritten⟩
  · obtain ⟨rfl, -⟩ | ⟨-, rfl⟩ | ⟨addr, v, -, rfl⟩ | ⟨v, -, -, rfl⟩ | ⟨reg, r, n, -, rfl⟩ := hostMove_cases moved
    · exact absurd (by rw [pending]; rfl) noReset
    · exact ⟨rfl, rfl, rfl⟩
    · rw [hostWriteMsg_of_busy (s := s.popMove) addr v busy]; exact ⟨rfl, rfl, rfl⟩
    · rw [hostWriteLen_of_busy (s := s.popMove) v busy]; exact ⟨rfl, rfl, rfl⟩
    · exact ⟨rfl, rfl, rfl⟩

section Done
variable {s t : State}

/-- R71: t holds the digest of s and is in DONE, INIT or FAULT. -/
def KeepsOutputs (s t : State) : Prop :=
  t.h = s.h ∧ t.hex = s.hex ∧ (t.phase = phaseDone ∨ t.phase = phaseInit ∨ t.phase = phaseFault)

theorem keepsOutputs_raise (code : ErrCode) : KeepsOutputs s (s.raise code) := ⟨rfl, rfl, .inr (.inr rfl)⟩

theorem keepsOutputs_exec_decodeCmd {v : Byte} (done : s.phase = phaseDone) (ran : exec (decodeCmd v) s = .next t) :
    KeepsOutputs s t := by
  obtain ⟨ignored, start | nop⟩ := decodeCmd_cases v
  · rw [start] at ran
    obtain ⟨-, answer⟩ | ⟨-, -, answer⟩ | ⟨-, -, -, answer⟩ | ⟨-, -, -, -, answer⟩ | ⟨-, -, -, -, answer⟩ :=
      execStart_cases ignored s
    · cases answer.symm.trans ran; exact ⟨rfl, rfl, .inl done⟩
    · cases answer.symm.trans ran; exact keepsOutputs_raise _
    · cases answer.symm.trans ran; exact keepsOutputs_raise _
    · cases answer.symm.trans ran; exact keepsOutputs_raise _
    · cases answer.symm.trans ran; exact ⟨rfl, rfl, .inr (.inl rfl)⟩
  · rw [nop] at ran
    cases ran
    exact ⟨rfl, rfl, .inl done⟩

theorem keepsOutputs_hostWriteMsg (addr : Nat) (v : Byte) (done : s.phase = phaseDone) :
    KeepsOutputs s (hostWriteMsg addr v s) := by
  obtain ⟨-, answer⟩ | ⟨-, -, answer⟩ | ⟨-, -, -, answer⟩ | ⟨-, -, -, answer⟩ := hostWriteMsg_cases addr v s
  · rw [answer]; exact ⟨rfl, rfl, .inl done⟩
  · rw [answer]; exact keepsOutputs_raise _
  · rw [answer]; exact keepsOutputs_raise _
  · rw [answer]; exact ⟨rfl, rfl, .inl done⟩

theorem keepsOutputs_hostWriteLen (v : Nat) (done : s.phase = phaseDone) : KeepsOutputs s (hostWriteLen v s) := by
  rw [hostWriteLen_of_accepted v (.inr done)]
  exact ⟨rfl, rfl, .inl done⟩

theorem keepsOutputs_hostMove {move : HostMove} (done : s.phase = phaseDone) (noReset : move ≠ .reset)
    (moved : hostMove move s = .next t) : KeepsOutputs s t := by
  obtain ⟨reset, -⟩ | ⟨-, rfl⟩ | ⟨addr, v, -, rfl⟩ | ⟨v, -, -, rfl⟩ | ⟨reg, r, n, -, rfl⟩ := hostMove_cases moved
  · exact absurd reset noReset
  · exact ⟨rfl, rfl, .inl done⟩
  · exact keepsOutputs_hostWriteMsg addr v done
  · exact keepsOutputs_hostWriteLen v done
  · exact ⟨rfl, rfl, .inl done⟩

end Done

/-- Settles O38: in DONE the core has no step, and neither a command nor another host move writes H or HEX. -/
theorem outputsFrozenWhileDone : Obligations.OutputsFrozenWhileDone := by
  intro s t done noReset stepped
  obtain ⟨i, s', fetched, ran⟩ | ⟨move, rest, pending, -, moved⟩ := step_cases stepped
  · obtain ⟨rfl, same, -⟩ | ⟨v, rest, -, -, rfl, rfl⟩ := fetch_cases fetched
    · rw [done] at ran
      cases ran
      obtain rfl | rfl := same
      · exact ⟨rfl, rfl, .inl done⟩
      · exact ⟨rfl, rfl, .inl done⟩
    · exact keepsOutputs_exec_decodeCmd (s := s.popMove) done ran
  · have noResetMove : move ≠ .reset := fun reset => noReset (by rw [pending, reset]; rfl)
    exact keepsOutputs_hostMove (s := s.popMove) done noResetMove moved

section Careful
variable {s t : State}

/-- t holds neither of the faults of a host that disturbs a busy core, but where s does. -/
def NoBusyFault (s t : State) : Prop :=
  (t.err = .reentry → s.err = .reentry) ∧ (t.err = .inputMutated → s.err = .inputMutated)

theorem noBusyFault_of_err_eq (same : t.err = s.err) : NoBusyFault s t := by
  unfold NoBusyFault
  rw [same]
  exact ⟨id, id⟩

theorem noBusyFault_raise {code : ErrCode} (notReentry : code ≠ .reentry) (notMutated : code ≠ .inputMutated) :
    NoBusyFault s (s.raise code) := by
  unfold NoBusyFault
  by_cases first : s.err = .none
  · simp [first, notReentry, notMutated]
  · simp [first]

/-- The operations of the PHASE codes either leave ERR or raise UNINIT or RESERVED_PHASE. -/
theorem noBusyFault_exec_decodePhase (p : BitVec 4) (ran : exec (decodePhase p) s = .next t) : NoBusyFault s t := by
  have isPhase := formatOf_decodePhase p
  generalize decodePhase p = i at isPhase ran
  by_cases listed : busyButFetch i = true
  · obtain ⟨u, answer, -, same⟩ := answersWithoutFault_of_busyButFetch s listed
    cases answer.symm.trans ran
    exact noBusyFault_of_err_eq same
  cases i with
  | init | pad | decode | expand | loadw | round | fold | format => exact absurd rfl listed
  | start _ | cmdnop _ => cases isPhase
  | idle | done | fault => cases ran; exact noBusyFault_of_err_eq rfl
  | reserved11 | reserved12 | reserved13 | reserved14 => cases ran; exact noBusyFault_raise nofun nofun
  | fetch =>
    obtain ⟨-, answer⟩ | ⟨-, block, -, answer⟩ | ⟨-, -, answer⟩ := execFetch_cases s
    · cases answer.symm.trans ran
    · cases answer.symm.trans ran; exact noBusyFault_of_err_eq rfl
    · cases answer.symm.trans ran; exact noBusyFault_raise nofun nofun

/-- R205: START raises REENTRY while BUSY = 1 only. -/
theorem noBusyFault_exec_start {ignored : BitVec 7} (notBusy : s.busy = false)
    (ran : exec (.start ignored) s = .next t) : NoBusyFault s t := by
  obtain ⟨-, answer⟩ | ⟨-, busy, -⟩ | ⟨-, -, -, answer⟩ | ⟨-, -, -, -, answer⟩ | ⟨-, -, -, -, answer⟩ :=
    execStart_cases ignored s
  · cases answer.symm.trans ran; exact noBusyFault_of_err_eq rfl
  · exact absurd (notBusy.symm.trans busy) nofun
  · cases answer.symm.trans ran; exact noBusyFault_raise nofun nofun
  · cases answer.symm.trans ran; exact noBusyFault_raise nofun nofun
  · cases answer.symm.trans ran; exact noBusyFault_of_err_eq rfl

theorem noBusyFault_hostWriteMsg (addr : Nat) (v : Byte) (notBusy : s.busy = false) :
    NoBusyFault s (hostWriteMsg addr v s) := by
  obtain ⟨-, answer⟩ | ⟨-, busy, -⟩ | ⟨-, -, -, answer⟩ | ⟨-, -, -, answer⟩ := hostWriteMsg_cases addr v s
  · rw [answer]; exact noBusyFault_of_err_eq rfl
  · exact absurd (notBusy.symm.trans busy) nofun
  · rw [answer]; exact noBusyFault_raise nofun nofun
  · rw [answer]; exact noBusyFault_of_err_eq rfl

theorem noBusyFault_hostWriteLen (v : Nat) (notBusy : s.busy = false) : NoBusyFault s (hostWriteLen v s) := by
  obtain ⟨-, answer⟩ | ⟨-, busy, -⟩ | ⟨-, -, answer⟩ := hostWriteLen_cases v s
  · rw [answer]; exact noBusyFault_of_err_eq rfl
  · exact absurd (notBusy.symm.trans busy) nofun
  · rw [answer]; exact noBusyFault_of_err_eq rfl

/-- A respectful write to CMD is START with BUSY = 0, or a CMD no-operation. -/
theorem noBusyFault_exec_decodeCmd {v : Nat} (respects : s.busy = false ∨ v % 2 = 0)
    (ran : exec (decodeCmd (BitVec.ofNat 8 v)) s = .next t) : NoBusyFault s t := by
  obtain notBusy | even := respects
  · obtain ⟨ignored, start | nop⟩ := decodeCmd_cases (BitVec.ofNat 8 v)
    · rw [start] at ran; exact noBusyFault_exec_start notBusy ran
    · rw [nop] at ran; cases ran; exact noBusyFault_of_err_eq rfl
  · obtain ⟨ignored, nop⟩ := decodeCmd_of_even even
    rw [nop] at ran
    cases ran
    exact noBusyFault_of_err_eq rfl

theorem respectsBusy_writeReg {reg v : Nat} (respects : HostMove.respectsBusy s (.writeReg reg v) = true) :
    s.busy = false ∨ (portReg reg = some .cmd ∧ v % 2 = 0) := by
  simpa [HostMove.respectsBusy] using respects

theorem noBusyFault_hostMove {move : HostMove} (respects : move.respectsBusy s = true)
    (moved : hostMove move s = .next t) : NoBusyFault s t := by
  obtain ⟨-, rfl⟩ | ⟨-, rfl⟩ | ⟨addr, v, rfl, rfl⟩ | ⟨v, rfl, -, rfl⟩ | ⟨reg, r, n, -, rfl⟩ := hostMove_cases moved
  · exact ⟨nofun, nofun⟩
  · exact noBusyFault_of_err_eq rfl
  · exact noBusyFault_hostWriteMsg addr v (by simpa [HostMove.respectsBusy] using respects)
  · obtain notBusy | ⟨isCmd, -⟩ := respectsBusy_writeReg respects
    · exact noBusyFault_hostWriteLen v notBusy
    · cases isCmd
  · exact noBusyFault_of_err_eq rfl

end Careful

/-- Settles O43: REENTRY and INPUT_MUTATED are raised by START and the input writes while BUSY = 1 only. -/
theorem carefulHostAvoidsBusyFaults : Obligations.CarefulHostAvoidsBusyFaults := by
  intro s t move next respects stepped
  obtain ⟨i, s', fetched, ran⟩ | ⟨move', rest, pending, -, moved⟩ := step_cases stepped
  · obtain ⟨rfl, rfl | rfl, -⟩ | ⟨v, rest, pending, -, rfl, rfl⟩ := fetch_cases fetched
    · exact noBusyFault_exec_decodePhase _ ran
    · exact noBusyFault_exec_decodePhase (s := s.popMove) _ ran
    · rw [pending, List.head?_cons] at next
      cases next
      exact noBusyFault_exec_decodeCmd (s := s.popMove) ((respectsBusy_writeReg respects).imp_right And.right) ran
  · rw [pending, List.head?_cons] at next
    cases next
    exact noBusyFault_hostMove (s := s.popMove) respects moved

end Sys2Proof.Proofs.Frames
end

