-- ==== Sys2Proof/Proofs/BlockPass.lean ====
section
/-! PROOFS. One pass over a Block (spec/43_compression.md R165, R168 to R172): eighty rounds as the fold over the
schedule that `compress` is, LOADW to FOLD, and FETCH to FOLD. -/

namespace Sys2Proof.Proofs.BlockPass

open Sys2Proof.Machine Sys2Proof.Proofs.BlockDecoder Sys2Proof.Proofs.Expander Sys2Proof.Proofs.Compression
open Sys2Proof.Proofs.PaddingLaws Sys2Proof.Proofs.HostPort

theorem step_at {s : State} {p : BitVec 4} (noMove : s.script = []) (code : s.phase = p) :
    step s = exec (decodePhase p) s := by
  rw [step_of_no_move noMove, code]

section Rounds

/-- Rounds k to 79 of a schedule: what is left of the fold of `compress` before round k. -/
def roundsFrom (w : Vector Word 80) (k : Nat) (x : Work) : Work :=
  ((List.finRange 80).drop k).foldl (fun x t => roundOf t.val w[t.val] x) x

theorem roundsFrom_of_lt (w : Vector Word 80) {k : Nat} (hk : k < 80) (x : Work) :
    roundsFrom w k x = roundsFrom w (k + 1) (roundOf k w[k] x) := by
  unfold roundsFrom
  rw [List.drop_eq_getElem_cons (by simpa using hk), List.foldl_cons]
  simp

theorem roundsFrom_eighty (w : Vector Word 80) (x : Work) : roundsFrom w 80 x = x := by
  unfold roundsFrom
  rw [List.drop_eq_nil_of_le (by simp), List.foldl_nil]

theorem compress_eq (h : Vector Word 5) (w : Vector Word 80) :
    compress h w = foldInto h (roundsFrom w 0 (workOf h)) := by
  rw [roundsFrom, List.drop_zero, compress]

variable {s : State}

/-- The state FOLD runs on, with the working registers x that the rounds have left. -/
def foldReady (s : State) (x : Work) : State := { s.setWork x with t := 79 }.goto phaseFold

theorem setWork_of_last (x : Work) (last : s.t = 79) : { s.setWork x with t := 79 } = s.setWork x := by
  rw [← last]
  rfl

theorem execRound_last_eq_foldReady (last : s.t.val = 79) :
    execRound s = .next (foldReady s (roundsFrom s.w s.t.val s.work)) := by
  rw [execRound_last last, foldReady, setWork_of_last _ (Fin.ext last), roundsFrom_of_lt s.w s.t.isLt,
    show s.t.val + 1 = 80 by omega, roundsFrom_eighty]

/-- What a round writes, the rounds after it write again. -/
theorem foldReady_of_round (x y : Work) (next : Fin 80) :
    foldReady ({ s.setWork y with t := next }.goto phaseRound) x = foldReady s x := rfl

/-- From round T on, the core makes the rounds that are left and goes to FOLD. -/
theorem run_rounds (n : Nat) (atRound : s.phase = phaseRound) (noMove : s.script = []) (left : s.t.val + n = 79) :
    Sys2Proof.core.run (n + 1) s = .next (foldReady s (roundsFrom s.w s.t.val s.work)) := by
  induction n generalizing s with
  | zero => exact run_succ_of_step 0 ((step_at noMove atRound).trans (execRound_last_eq_foldReady left))
  | succ n ih =>
    have advance : (⟨s.t.val + 1, by omega⟩ : Fin 80).val = s.t.val + 1 := rfl
    rw [run_succ_of_step (n + 1) ((step_at noMove atRound).trans (execRound_inner advance)),
      roundsFrom_of_lt s.w s.t.isLt, ← foldReady_of_round]
    exact ih rfl noMove (by simp only [State.goto_t]; omega)

theorem run_to_fold (atLoadw : s.phase = phaseLoadw) (noMove : s.script = []) :
    Sys2Proof.core.run 81 s = .next (foldReady s (roundsFrom s.w 0 (workOf s.h))) := by
  rw [run_succ_of_step 80 ((step_at noMove atLoadw).trans (exec_loadw s)), ← foldReady_of_round]
  exact run_rounds 79 rfl noMove rfl

end Rounds

section Fold
variable {s : State}

/-- R171: where FOLD leads: to FORMAT after the last Block, else to the next Block. -/
def FoldExit (s t : State) : Prop :=
  (s.kblk + 1 = s.nblk → t.phase = phaseFormat ∧ t.kblk = s.kblk) ∧
    (s.kblk + 1 ≠ s.nblk → t.phase = phaseFetch ∧ t.kblk = s.kblk + 1)

/-- What LOADW, ROUND and FOLD may change (R168, R169, R171). -/
def CompressionFrame (s t : State) : Prop :=
  t = { s with h := t.h, a := t.a, b := t.b, c := t.c, d := t.d, e := t.e, t := t.t, kblk := t.kblk, phase := t.phase }

/-- R171: the FOLD of any working registers. -/
theorem step_foldReady (x : Work) (noMove : s.script = []) :
    ∃ t, step (foldReady s x) = .next t ∧ t.h = foldInto s.h x ∧ CompressionFrame s t ∧ FoldExit s t := by
  have fold : step (foldReady s x) = exec .fold (foldReady s x) := step_at (s := foldReady s x) noMove rfl
  by_cases last : s.kblk + 1 = s.nblk
  · exact ⟨_, fold.trans (exec_fold_last (s := foldReady s x) last), rfl, rfl, fun _ => ⟨rfl, rfl⟩, (absurd last ·)⟩
  · exact ⟨_, fold.trans (exec_fold_more (s := foldReady s x) last), rfl, rfl, (absurd · last), fun _ => ⟨rfl, rfl⟩⟩

end Fold

/-- Settles O46: 81 steps to FOLD, and the FOLD, which adds in what the rounds of `compress` left. -/
theorem eightyTwoStepsCompress : Obligations.EightyTwoStepsCompress := by
  intro s atLoadw noMove
  obtain ⟨t, fold, folded, frame, exits⟩ := step_foldReady (roundsFrom s.w 0 (workOf s.h)) noMove
  have toFold := run_add_of_run 81 1 (run_to_fold atLoadw noMove)
  exact ⟨t, toFold.trans (run_succ_of_step 0 fold), folded.trans (compress_eq s.h s.w).symm, frame, exits⟩

section Pass
variable {s : State} {m : List Byte}

/-- The state LOADW runs on in the pass over a Block. -/
def loadwReady (s : State) (block : Vector Byte 64) (schedule : Vector Word 80) : State :=
  { s with blk := block, w := schedule, phase := phaseLoadw }

/-- FETCH, DECODE and EXPAND make the Schedule of the Block, whatever W held (R155). -/
theorem run_to_loadw {block : Vector Byte 64} (noMove : s.script = []) (atFetch : s.phase = phaseFetch)
    (fetched : exec .fetch s = .next { s with blk := block, phase := phaseDecode }) :
    Sys2Proof.core.run 3 s = .next (loadwReady s block (expand (decodeBlock block))) := by
  have decodes : step { s with blk := block, phase := phaseDecode } =
      .next { s with blk := block, w := loadFirst16 (decodeBlock block) s.w, phase := phaseExpand } :=
    step_of_no_move (s := { s with blk := block, phase := phaseDecode }) noMove
  have expands : step { s with blk := block, w := loadFirst16 (decodeBlock block) s.w, phase := phaseExpand } =
      .next (loadwReady s block (expand (decodeBlock block))) := by
    rw [loadwReady, ← expandInPlace_loadFirst16 _ s.w]
    exact (step_at (by exact noMove) rfl).trans (exec_expand _)
  rw [run_succ_of_step 2 ((step_at noMove atFetch).trans fetched), run_succ_of_step 1 decodes,
    run_succ_of_step 0 expands, run_zero]

/-- What a pass over a Block may change. -/
def PassFrame (s t : State) : Prop :=
  t = { s with h := t.h, a := t.a, b := t.b, c := t.c, d := t.d, e := t.e, w := t.w, blk := t.blk, t := t.t,
               kblk := t.kblk, phase := t.phase }

theorem run_loadwReady (block : Vector Byte 64) (schedule : Vector Word 80) (noMove : s.script = []) :
    ∃ t, Sys2Proof.core.run 82 (loadwReady s block schedule) = .next t ∧ t.h = compress s.h schedule ∧
      PassFrame s t ∧ FoldExit s t := by
  obtain ⟨t, ran, compressed, frame, exits⟩ := eightyTwoStepsCompress (loadwReady s block schedule) rfl noMove
  refine ⟨t, ran, compressed, ?_, exits⟩
  rw [frame]
  rfl

/-- R172: the pass over Block KBLK of a message in place. -/
theorem run_blockPass (held : s.HoldsMessage m) (blocks : s.nblk = blockCount m.length)
    (len : s.len64 = bitLength m.length) (inRange : s.kblk < s.nblk) (atFetch : s.phase = phaseFetch)
    (noMove : s.script = []) :
    ∃ t, Sys2Proof.core.run 85 s = .next t ∧ t.h = foldBlock (pad m) s.h s.kblk ∧ PassFrame s t ∧ FoldExit s t := by
  have fetched := fetchTakesTheBlockOfThePaddedMessage s m held blocks len inRange
  have toLoadw := run_add_of_run 3 82 (run_to_loadw noMove atFetch fetched)
  obtain ⟨t, ran, compressed, passed⟩ := run_loadwReady _ _ noMove
  exact ⟨t, toLoadw.trans ran, compressed, passed⟩

end Pass

/-- Settles O47: the pass changes none of the registers named. -/
theorem blockPassCompressesTheBlock : Obligations.BlockPassCompressesTheBlock := by
  intro s m held blocks len inRange atFetch noMove
  obtain ⟨t, ran, compressed, frame, exits⟩ := run_blockPass held blocks len inRange atFetch noMove
  refine ⟨t, ran, compressed, ?_, ?_, ?_, ?_, ?_, exits⟩
  all_goals rw [frame]

end Sys2Proof.Proofs.BlockPass
end

