-- ==== Sys2Proof/Proofs/WholeRun.lean ====
section
/-! PROOFS. A whole run (spec/45_orchestration.md section 3): the Block loop against R200's loop over the padded stream
(R209), and that the result is a function of the message (R211). -/

namespace Sys2Proof.Proofs.WholeRun

open Sys2Proof.Machine Sys2Proof.Proofs.PaddedStream Sys2Proof.Proofs.Preprocessor Sys2Proof.Proofs.Orchestration
open Sys2Proof.Proofs.Exceptions Sys2Proof.Proofs.Encoding Sys2Proof.Proofs.StatusFlags Sys2Proof.Proofs.HostPort
open Sys2Proof.Proofs.BlockPass

section Functional

theorem foldBlocks_zero (stream : List Byte) : foldBlocks stream 0 = hInit := rfl

theorem foldBlocks_succ (stream : List Byte) (k : Nat) :
    foldBlocks stream (k + 1) = foldBlock stream (foldBlocks stream k) k := by
  rw [foldBlocks, List.range_succ, List.foldl_append, foldBlocks]
  rfl

theorem digestState_eq (m : List Byte) : digestState m = foldBlocks (pad m) (blockCount m.length) := by
  rw [digestState, pad_length, Nat.mul_div_cancel_left _ (by decide)]

end Functional

/-- The run over m that began in s₀ is about to fetch Block k: the padder's registers are set, H is R200's h before
iteration k, and what a run keeps is as it was in s₀. -/
structure AtBlock (s₀ : State) (m : List Byte) (k : Nat) (s : State) : Prop where
  noMove : s.script = []
  atFetch : s.phase = phaseFetch
  held : s.HoldsMessage m
  blocks : s.nblk = blockCount m.length
  len : s.len64 = bitLength m.length
  overflow : s.lenovf = lengthOverflows m.length
  block : s.kblk = k
  accumulators : s.h = foldBlocks (pad m) k
  sameMem : s.mem = s₀.mem
  sameLength : s.msglen = s₀.msglen
  sameErr : s.err = s₀.err

section Loop
variable {s₀ s : State} {m : List Byte} {k v : Nat}

/-- INIT and PAD bring an accepted START to the first FETCH. -/
theorem atBlock_zero_of_started (held : s₀.HoldsMessage m) :
    ∃ t, Sys2Proof.core.run 2 { s₀ with script := [], lenovf := false, phase := phaseInit } = .next t ∧
      AtBlock s₀ m 0 t := by
  have ran : Sys2Proof.core.run 2 { s₀ with script := [], lenovf := false, phase := phaseInit } = .next
      { s₀ with
        script := [], h := hInit, nblk := blockCount s₀.msglen, len64 := bitLength s₀.msglen,
        lenovf := lengthOverflows s₀.msglen, kblk := 0, phase := phaseFetch } := rfl
  refine ⟨_, ran, ?_⟩
  rw [held.lengthIs]
  exact
    { noMove := rfl, atFetch := rfl, blocks := rfl, len := rfl, overflow := rfl, block := rfl
      accumulators := (foldBlocks_zero _).symm, sameMem := rfl, sameLength := held.lengthIs.symm, sameErr := rfl
      held :=
        { lengthWritten := held.lengthWritten, lengthIs := rfl, fits := held.fits, bytesAre := held.bytesAre } }

/-- R205: an odd value written to CMD in IDLE or DONE starts a run over the message in place. -/
theorem run_to_first_block (waiting : s₀.phase = phaseIdle ∨ s₀.phase = phaseDone) (held : s₀.HoldsMessage m)
    (fits : v < 256) (odd : v % 2 = 1) (pending : s₀.script = [.writeReg 3 v]) :
    ∃ t, Sys2Proof.core.run 3 s₀ = .next t ∧ AtBlock s₀ m 0 t := by
  obtain ⟨notFaulted, notBusy⟩ := flags_of_idle_or_done waiting
  obtain ⟨ignored, start⟩ := decodeCmd_of_odd odd
  have started : step s₀ = .next { s₀ with script := [], lenovf := false, phase := phaseInit } := by
    rw [step_of_cmd fits pending, start]
    exact exec_start_of_accepted ignored notFaulted notBusy held.lengthWritten (held.lengthIs ▸ held.fits)
  rw [run_succ_of_step 2 started]
  exact atBlock_zero_of_started held

/-- R200: the pass over Block k is iteration k. -/
theorem run_pass_of_atBlock (loop : AtBlock s₀ m k s) (inRange : k < blockCount m.length) :
    ∃ t, Sys2Proof.core.run 85 s = .next t ∧ t.h = foldBlocks (pad m) (k + 1) ∧ PassFrame s t ∧ FoldExit s t := by
  have blockInRange : s.kblk < s.nblk := by rwa [loop.block, loop.blocks]
  obtain ⟨t, ran, compressed, passed⟩ :=
    run_blockPass loop.held loop.blocks loop.len blockInRange loop.atFetch loop.noMove
  refine ⟨t, ran, ?_, passed⟩
  rw [compressed, loop.accumulators, loop.block, foldBlocks_succ]

theorem holdsMessage_of_passFrame {t : State} (held : s.HoldsMessage m) (frame : PassFrame s t) : t.HoldsMessage m := by
  rw [frame]
  exact { held with }

theorem atBlock_succ (loop : AtBlock s₀ m k s) (more : k + 1 < blockCount m.length) :
    ∃ t, Sys2Proof.core.run 85 s = .next t ∧ AtBlock s₀ m (k + 1) t := by
  obtain ⟨t, ran, accumulators, frame, -, next⟩ := run_pass_of_atBlock loop (Nat.lt_of_succ_lt more)
  obtain ⟨atFetch, block⟩ := next (by rw [loop.block, loop.blocks]; omega)
  have held := holdsMessage_of_passFrame loop.held frame
  rw [loop.block] at block
  refine ⟨t, ran, ?_⟩
  exact
    { atFetch, block, accumulators, held
      noMove := by rw [frame]; exact loop.noMove
      blocks := by rw [frame]; exact loop.blocks
      len := by rw [frame]; exact loop.len
      overflow := by rw [frame]; exact loop.overflow
      sameMem := by rw [frame]; exact loop.sameMem
      sameLength := by rw [frame]; exact loop.sameLength
      sameErr := by rw [frame]; exact loop.sameErr }

theorem run_to_block (started : ∃ t, Sys2Proof.core.run 3 s₀ = .next t ∧ AtBlock s₀ m 0 t) :
    ∀ k, k < blockCount m.length → ∃ t, Sys2Proof.core.run (3 + 85 * k) s₀ = .next t ∧ AtBlock s₀ m k t
  | 0, _ => started
  | k + 1, inRange => by
    obtain ⟨s, ran, loop⟩ := run_to_block started k (Nat.lt_of_succ_lt inRange)
    obtain ⟨t, pass, next⟩ := atBlock_succ loop inRange
    exact ⟨t, (run_add_of_run (3 + 85 * k) 85 ran).trans pass, next⟩

/-- The last pass, and FORMAT. -/
theorem run_last_pass (loop : AtBlock s₀ m k s) (last : k + 1 = blockCount m.length) :
    ∃ t, Sys2Proof.core.run 86 s = .next t ∧ t.phase = phaseDone ∧ t.hex = digest m ∧ t.h = digestState m ∧
      t.nblk = blockCount m.length ∧ t.len64 = bitLength m.length ∧ t.lenovf = lengthOverflows m.length ∧
      t.mem = s₀.mem ∧ t.msglen = s₀.msglen ∧ t.err = s₀.err := by
  obtain ⟨u, ran, accumulators, frame, atEnd, -⟩ := run_pass_of_atBlock loop (last ▸ Nat.lt_succ_self k)
  obtain ⟨atFormat, -⟩ := atEnd (by rw [loop.block, loop.blocks, last])
  have noMove : u.script = [] := by rw [frame]; exact loop.noMove
  have formats := run_succ_of_step 0 ((step_at noMove atFormat).trans (exec_format u))
  rw [last, ← digestState_eq] at accumulators
  refine ⟨_, (run_add_of_run 85 1 ran).trans formats, rfl, ?_, accumulators, ?_, ?_, ?_, ?_, ?_, ?_⟩
  · rw [accumulators, digest]
  · rw [frame]; exact loop.blocks
  · rw [frame]; exact loop.len
  · rw [frame]; exact loop.overflow
  · rw [frame]; exact loop.sameMem
  · rw [frame]; exact loop.sameLength
  · rw [frame]; exact loop.sameErr

end Loop

/-- Settles O48: START to the first Block, the Block loop, and the last pass with FORMAT. -/
theorem runComputesTheDigest : Obligations.RunComputesTheDigest := by
  intro s m v waiting held fits odd pending
  have toBlock := run_to_block (run_to_first_block waiting held fits odd pending)
  refine ⟨?result, fun k inRange => ?iteration⟩
  case result =>
    obtain ⟨k, last⟩ : ∃ k, k + 1 = blockCount m.length := ⟨_, rfl⟩
    obtain ⟨u, ran, loop⟩ := toBlock k (last ▸ Nat.lt_succ_self k)
    obtain ⟨t, pass, done, hex, accumulators, nblk, len, overflow, kept⟩ := run_last_pass loop last
    have steps : 1 + (3 + 85 * blockCount m.length) = 3 + 85 * k + 86 := by omega
    refine ⟨t, ?_, done, hex, accumulators, nblk, ?_, ?_, kept⟩
    · rw [steps, run_add_of_run _ 86 ran, pass]
    · rw [len, bitLength_toNat]
    · rw [overflow, lengthOverflows_eq_true]
  case iteration =>
    obtain ⟨u, ran, loop⟩ := toBlock k inRange
    obtain ⟨t, pass, accumulators, -⟩ := run_pass_of_atBlock loop inRange
    have steps : 1 + (2 + 85 * (k + 1)) = 3 + 85 * k + 85 := by omega
    refine ⟨t, ?_, accumulators⟩
    rw [steps, run_add_of_run _ 85 ran, pass]

theorem idleOrDone_iff {s : State} : s.idleOrDone = true ↔ s.phase = phaseIdle ∨ s.phase = phaseDone := by
  simp [State.idleOrDone]

/-- Settles O51: each run computes the digest of the one message. -/
theorem digestIndependentOfHistory : Obligations.DigestIndependentOfHistory := by
  intro s s' m waiting waiting' held held' pending pending'
  have steps : 4 + 85 * blockCount m.length = 1 + (3 + 85 * blockCount m.length) := by omega
  obtain ⟨⟨t, ran, done, hex, h, -, -, overflow, -⟩, -⟩ :=
    runComputesTheDigest s m 1 (idleOrDone_iff.mp waiting) held (by decide) rfl pending
  obtain ⟨⟨t', ran', done', hex', h', -, -, overflow', -⟩, -⟩ :=
    runComputesTheDigest s' m 1 (idleOrDone_iff.mp waiting') held' (by decide) rfl pending'
  rw [steps]
  exact ⟨t, t', ran, ran', done, done', h.trans h'.symm, hex.trans hex'.symm,
    Bool.eq_iff_iff.mpr (overflow.trans overflow'.symm)⟩

end Sys2Proof.Proofs.WholeRun
end

