-- ==== Sys2Proof/Proofs/Progress.lean ====
section
/-! PROOFS. The course of a run (spec/45_orchestration.md section 3): the steps that are left fall with every step until
DONE or FAULT (R210), and two cores with messages of one length stay in step (R218). -/

namespace Sys2Proof.Proofs.Progress

open Sys2Proof.Machine Sys2Proof.Proofs.Preprocessor Sys2Proof.Proofs.BlockDecoder Sys2Proof.Proofs.Expander
open Sys2Proof.Proofs.Compression Sys2Proof.Proofs.Orchestration Sys2Proof.Proofs.Exceptions Sys2Proof.Proofs.Encoding
open Sys2Proof.Proofs.StatusFlags Sys2Proof.Proofs.Invariant Sys2Proof.Proofs.PaddingLaws Sys2Proof.Proofs.HostPort
open Sys2Proof.Proofs.Frames Sys2Proof.Proofs.BlockPass

section Measure

/-- The core steps left before DONE at a PHASE, with `blocks` Blocks to come after the one in progress. -/
def stepsLeftAt (p : BitVec 4) (total blocks t : Nat) : Nat :=
  match decodePhase p with
  | .init => 85 * total + 3
  | .pad => 85 * total + 2
  | .fetch => 85 * blocks + 86
  | .decode => 85 * blocks + 85
  | .expand => 85 * blocks + 84
  | .loadw => 85 * blocks + 83
  | .round => 85 * blocks + (82 - t)
  | .fold => 85 * blocks + 2
  | .format => 1
  | .idle | .done | .reserved11 | .reserved12 | .reserved13 | .reserved14 | .fault | .start _ | .cmdnop _ => 0

section Equations
variable (total blocks t : Nat)

@[simp] theorem stepsLeftAt_init : stepsLeftAt phaseInit total blocks t = 85 * total + 3 := rfl
@[simp] theorem stepsLeftAt_pad : stepsLeftAt phasePad total blocks t = 85 * total + 2 := rfl
@[simp] theorem stepsLeftAt_fetch : stepsLeftAt phaseFetch total blocks t = 85 * blocks + 86 := rfl
@[simp] theorem stepsLeftAt_decode : stepsLeftAt phaseDecode total blocks t = 85 * blocks + 85 := rfl
@[simp] theorem stepsLeftAt_expand : stepsLeftAt phaseExpand total blocks t = 85 * blocks + 84 := rfl
@[simp] theorem stepsLeftAt_loadw : stepsLeftAt phaseLoadw total blocks t = 85 * blocks + 83 := rfl
@[simp] theorem stepsLeftAt_round : stepsLeftAt phaseRound total blocks t = 85 * blocks + (82 - t) := rfl
@[simp] theorem stepsLeftAt_fold : stepsLeftAt phaseFold total blocks t = 85 * blocks + 2 := rfl
@[simp] theorem stepsLeftAt_format : stepsLeftAt phaseFormat total blocks t = 1 := rfl
@[simp] theorem stepsLeftAt_done : stepsLeftAt phaseDone total blocks t = 0 := rfl
@[simp] theorem stepsLeftAt_fault : stepsLeftAt phaseFault total blocks t = 0 := rfl

/-- R210: a run never has more steps left than at INIT. -/
theorem stepsLeftAt_le (p : BitVec 4) (inRange : blocks < total) :
    stepsLeftAt p total blocks t ≤ 85 * total + 3 := by
  unfold stepsLeftAt
  split <;> omega

end Equations

theorem blockCount_pos (L : Nat) : 0 < blockCount L := Nat.succ_pos _

/-- The core steps left in a run of the machine. -/
def stepsLeft (s : State) : Nat :=
  stepsLeftAt s.phase (blockCount s.msglen) (blockCount s.msglen - (s.kblk + 1)) s.t.val

/-- A step of a run: it comes nearer to the end, and the run goes on or is over. -/
def Advances (s t : State) : Prop := stepsLeft t < stepsLeft s ∧ (t.busy = true ∨ t.runOver = true)

variable {s t : State}

/-- A PHASE in which a run goes on or is over. -/
def inRun (p : BitVec 4) : Bool := phaseBusy p || p == phaseDone || p == phaseFault

theorem busy_or_runOver_of_inRun (listed : inRun t.phase = true) : t.busy = true ∨ t.runOver = true := by
  simpa [inRun, or_assoc, State.busy, State.runOver] using listed

theorem advances_of {p q : BitVec 4} (source : s.phase = p) (target : t.phase = q) (sameLength : t.msglen = s.msglen)
    (fewer : stepsLeftAt q (blockCount s.msglen) (blockCount s.msglen - (t.kblk + 1)) t.t.val <
      stepsLeftAt p (blockCount s.msglen) (blockCount s.msglen - (s.kblk + 1)) s.t.val)
    (listed : inRun q = true) : Advances s t := by
  refine ⟨?_, busy_or_runOver_of_inRun (target.symm ▸ listed)⟩
  unfold stepsLeft
  rwa [source, target, sameLength]

end Measure

section Bound
variable {s t : State}

/-- A core step of a run with the invariant answers a state. -/
theorem exec_answers_of_inv (inv : s.Inv) (busy : s.busy = true) : ∃ t, exec (decodePhase s.phase) s = .next t := by
  by_cases atFetch : s.phase = phaseFetch
  · have inside := blockBeyondMsg_eq_false_of_fits (inv.lengthAccepted busy).2
    rw [atFetch]
    obtain ⟨beyond, -⟩ | ⟨-, block, -, answer⟩ | ⟨-, -, answer⟩ := execFetch_cases s
    · exact absurd (inside.symm.trans beyond) nofun
    · exact ⟨_, answer⟩
    · exact ⟨_, answer⟩
  · obtain ⟨t, answer, -⟩ :=
      answersWithoutFault_of_busyButFetch s (busyButFetch_decodePhase s.phase busy atFetch)
    exact ⟨t, answer⟩

/-- R203: along the transition table, the steps left fall. FOLD is where a Block is counted off. -/
theorem advances_of_step (inv : s.Inv) (busy : s.busy = true) (noMove : s.script = []) (stepped : step s = .next t) :
    Advances s t := by
  obtain ⟨-, init, pad, fetch, decode, expand, loadw, roundInner, roundLast, foldMore, foldLast, format, -, -⟩ :=
    phasesFollowTheTable s t noMove stepped
  obtain ⟨-, sameLength, -⟩ :=
    registersChangeOnlyByTheirWriters _ s t ((step_of_no_move noMove).symm.trans stepped)
  have positive := blockCount_pos s.msglen
  have code := eq_code_of_decodePhase s.phase
  have isPhase := formatOf_decodePhase s.phase
  have working : phaseBusy s.phase = true := busy
  generalize decodePhase s.phase = i at code isPhase
  cases i with
  | idle | done | reserved11 | reserved12 | reserved13 | reserved14 | fault => rw [code] at working; cases working
  | start _ | cmdnop _ => cases isPhase
  | init =>
    obtain ⟨target, -⟩ := init code
    exact advances_of (p := phaseInit) code target sameLength (by simp) rfl
  | pad =>
    obtain ⟨target, kblk, -⟩ := pad code
    exact advances_of (p := phasePad) code target sameLength (by simp [kblk]; omega) rfl
  | fetch =>
    obtain ⟨target | target, kblk, -⟩ := fetch code
    · exact advances_of (p := phaseFetch) code target sameLength (by simp [kblk]) rfl
    · exact advances_of (p := phaseFetch) code target sameLength (by simp) rfl
  | decode =>
    obtain ⟨target, kblk, -⟩ := decode code
    exact advances_of (p := phaseDecode) code target sameLength (by simp [kblk]) rfl
  | expand =>
    obtain ⟨target, kblk, -⟩ := expand code
    exact advances_of (p := phaseExpand) code target sameLength (by simp [kblk]) rfl
  | loadw =>
    obtain ⟨target, kblk, t⟩ := loadw code
    exact advances_of (p := phaseLoadw) code target sameLength (by simp [kblk, t]) rfl
  | round =>
    obtain last | inner : s.t.val = 79 ∨ s.t.val < 79 := by omega
    · obtain ⟨target, kblk, -⟩ := roundLast code last
      exact advances_of (p := phaseRound) code target sameLength (by simp [kblk, last]) rfl
    · obtain ⟨target, kblk, t⟩ := roundInner code inner
      exact advances_of (p := phaseRound) code target sameLength (by simp [kblk, t]; omega) rfl
  | fold =>
    have nblk : s.nblk = blockCount s.msglen :=
      have ⟨set, _⟩ := inv.padderSet (by rw [code]; decide) (by rw [code]; decide)
      set
    obtain last | more : s.kblk + 1 = s.nblk ∨ s.kblk + 1 < s.nblk := by have := inv.blockInRange; omega
    · obtain ⟨target, -⟩ := foldLast code last
      exact advances_of (p := phaseFold) code target sameLength (by simp) rfl
    · obtain ⟨target, kblk, -⟩ := foldMore code more
      exact advances_of (p := phaseFold) code target sameLength (by simp [kblk]; omega) rfl
  | format =>
    obtain ⟨target, -⟩ := format code
    exact advances_of (p := phaseFormat) code target sameLength (by simp) rfl

/-- A run with the invariant is over within any bound on the steps left. -/
theorem run_ends (n : Nat) (inv : s.Inv) (busy : s.busy = true) (noMove : s.script = []) (bound : stepsLeft s ≤ n) :
    ∃ k t, k ≤ n ∧ Sys2Proof.core.run k s = .next t ∧ t.runOver = true := by
  induction n generalizing s with
  | zero =>
    obtain ⟨t, answer⟩ := exec_answers_of_inv inv busy
    obtain ⟨fewer, -⟩ := advances_of_step inv busy noMove ((step_of_no_move noMove).trans answer)
    omega
  | succ n ih =>
    obtain ⟨t, answer⟩ := exec_answers_of_inv inv busy
    have stepped := (step_of_no_move noMove).trans answer
    obtain ⟨fewer, goesOn | ended⟩ := advances_of_step inv busy noMove stepped
    · obtain ⟨-, -, -, -, -, -, -, -, -, -, -, -, -, script, -⟩ := registersChangeOnlyByTheirWriters _ s t answer
      obtain ⟨k, u, within, ran, ended⟩ :=
        ih (everyStepKeepsTheInvariant s t inv stepped) goesOn (script.trans noMove) (by omega)
      exact ⟨k + 1, u, Nat.succ_le_succ within, (run_succ_of_step k stepped).trans ran, ended⟩
    · exact ⟨1, t, by omega, run_succ_of_step 0 stepped, ended⟩

end Bound

/-- Settles O49: the steps left at any point of a run are at most those at INIT. -/
theorem runEndsWithinBound : Obligations.RunEndsWithinBound := by
  intro s inv busy noMove
  have positive := blockCount_pos s.msglen
  have bound : stepsLeft s ≤ 3 + 85 * blockCount s.msglen :=
    (stepsLeftAt_le _ _ _ s.phase (by omega)).trans (Nat.add_comm _ _).le
  exact run_ends _ inv busy noMove bound

section Abreast
variable {s s' t : State} {m m' : List Byte}

/-- R218: two cores in the same position of their runs. -/
structure Abreast (s s' : State) : Prop where
  phase : s.phase = s'.phase
  kblk : s.kblk = s'.kblk
  nblk : s.nblk = s'.nblk
  t : s.t = s'.t

/-- With a message in place FETCH takes a Block, at any KBLK. -/
theorem exec_fetch_of_holdsMessage (held : s.HoldsMessage m) :
    ∃ block, exec .fetch s = .next { s with blk := block, phase := phaseDecode } := by
  have inside := blockBeyondMsg_eq_false_of_fits (msglen_le_of_holdsMessage held)
  have written : ∀ j, j < s.msglen → Memory.read s.mem j ≠ none := fun j inMessage => by
    rw [held.bytesAre j (held.lengthIs ▸ inMessage)]
    nofun
  obtain ⟨block, fetched⟩ := streamBlock_isSome fun i _ => streamByte_isSome (written (blockIndex s i))
  exact ⟨block, exec_fetch_of_streamBlock_eq_some inside fetched⟩

/-- A core step takes two such cores to a common position again: what it writes to PHASE, KBLK, NBLK and T it takes from
these, from MSGLEN and from what both messages being in place decides. -/
theorem abreast_exec (p : BitVec 4) (held : s.HoldsMessage m) (held' : s'.HoldsMessage m')
    (sameLength : s.msglen = s'.msglen) (abreast : Abreast s s') :
    ∃ t t', exec (decodePhase p) s = .next t ∧ exec (decodePhase p) s' = .next t' ∧ Abreast t t' := by
  obtain ⟨phase, kblk, nblk, round⟩ := abreast
  have isPhase := formatOf_decodePhase p
  generalize decodePhase p = i at isPhase
  cases i with
  | idle | done | fault => exact ⟨s, s', rfl, rfl, phase, kblk, nblk, round⟩
  | reserved11 | reserved12 | reserved13 | reserved14 => exact ⟨_, _, rfl, rfl, rfl, kblk, nblk, round⟩
  | start _ | cmdnop _ => cases isPhase
  | init => exact ⟨_, _, exec_init s, exec_init s', rfl, kblk, nblk, round⟩
  | pad => exact ⟨_, _, exec_pad s, exec_pad s', rfl, rfl, congrArg blockCount sameLength, round⟩
  | decode => exact ⟨_, _, exec_decode s, exec_decode s', rfl, kblk, nblk, round⟩
  | expand => exact ⟨_, _, exec_expand s, exec_expand s', rfl, kblk, nblk, round⟩
  | loadw => exact ⟨_, _, exec_loadw s, exec_loadw s', rfl, kblk, nblk, rfl⟩
  | format => exact ⟨_, _, exec_format s, exec_format s', rfl, kblk, nblk, round⟩
  | fetch =>
    obtain ⟨block, answer⟩ := exec_fetch_of_holdsMessage held
    obtain ⟨block', answer'⟩ := exec_fetch_of_holdsMessage held'
    exact ⟨_, _, answer, answer', rfl, kblk, nblk, round⟩
  | round =>
    by_cases last : s.t.val = 79
    · have last' : s'.t.val = 79 := by rwa [← round]
      exact ⟨_, _, execRound_last last, execRound_last last', rfl, kblk, nblk, round⟩
    · have next : (⟨s.t.val + 1, by omega⟩ : Fin 80).val = s.t.val + 1 := rfl
      have next' : (⟨s.t.val + 1, by omega⟩ : Fin 80).val = s'.t.val + 1 := by rw [← round]
      exact ⟨_, _, execRound_inner next, execRound_inner next', rfl, kblk, nblk, rfl⟩
  | fold =>
    have next := congrArg (· + 1) kblk
    by_cases last : s.kblk + 1 = s.nblk
    · exact ⟨_, _, exec_fold_last last, exec_fold_last (next.symm.trans (last.trans nblk)), rfl, kblk, nblk, round⟩
    · have more' : s'.kblk + 1 ≠ s'.nblk := by rwa [← kblk, ← nblk]
      exact ⟨_, _, exec_fold_more last, exec_fold_more more', rfl, next, nblk, round⟩

/-- No operation writes MSG, MSGLEN or the parameters, so that a message in place stays in place. -/
theorem holdsMessage_exec {i : Instr} (held : s.HoldsMessage m) (ran : exec i s = .next t) :
    t.HoldsMessage m ∧ t.script = s.script := by
  obtain ⟨mem, msglen, written, -, -, -, -, -, -, -, -, -, cfg, script, -⟩ :=
    registersChangeOnlyByTheirWriters i s t ran
  refine ⟨⟨written.trans held.lengthWritten, msglen.trans held.lengthIs, ?_, ?_⟩, script⟩
  · rw [cfg]; exact held.fits
  · rw [mem]; exact held.bytesAre

end Abreast

/-- Settles O50: by induction on the steps, each of which takes two cores abreast to a common position. -/
theorem controlDependsOnLengthOnly : Obligations.ControlDependsOnLengthOnly := by
  intro n
  induction n with
  | zero =>
    intro s s' m m' _ _ _ _ _ phase kblk nblk round
    exact ⟨s, s', rfl, rfl, phase, kblk, nblk, round⟩
  | succ n ih =>
    intro s s' m m' held held' sameLength noMove noMove' phase kblk nblk round
    have sameMsglen : s.msglen = s'.msglen := by rw [held.lengthIs, held'.lengthIs, sameLength]
    obtain ⟨u, u', answer, answer', abreast⟩ :=
      abreast_exec s.phase held held' sameMsglen ⟨phase, kblk, nblk, round⟩
    obtain ⟨heldNext, script⟩ := holdsMessage_exec held answer
    obtain ⟨heldNext', script'⟩ := holdsMessage_exec held' answer'
    obtain ⟨t, t', ran, ran', position⟩ := ih u u' m m' heldNext heldNext' sameLength (script.trans noMove)
      (script'.trans noMove') abreast.phase abreast.kblk abreast.nblk abreast.t
    exact ⟨t, t', (run_succ_of_step n ((step_of_no_move noMove).trans answer)).trans ran,
      (run_succ_of_step n ((step_at noMove' phase.symm).trans answer')).trans ran', position⟩

end Sys2Proof.Proofs.Progress
end
